-- ==== Sys2Proof/Word.lean ====
section
/-! DEFINITION. The one word of the core: every datum it stores, moves or compares is a byte (00_scope R10). -/

namespace Sys2Proof

/-- A byte, unsigned, 0 to 255; bit 0 is the least significant (00_scope R10). -/
abbrev Byte := BitVec 8

end Sys2Proof
end

