-- ==== Sys2Proof/Config.lean ====
section
/-! DEFINITION. What is fixed before reset (00_scope R7 to R9): `C`, `L` and `CNT_W`, and the model's one free value. -/

namespace Sys2Proof

/-- What is "fixed before reset and never changed while the core runs" (R7): the two constants `CAPACITY` (`C`) and `FRAME_LEN` (`L`), and the
width `CNT_W` of the register that holds `count` (table of R9). All are OPEN, "the model takes the value as an argument" (92 D4, D5, D7), so a
state carries them and every statement speaks of all. -/
structure Config where
  /-- `C`, the number of bytes of storage and the modulus of both cursors. -/
  capacity : Nat
  /-- `L`, the length in bytes of a stuffed frame. -/
  frameLen : Nat
  /-- `CNT_W`, the bits of a hardware realisation's `count`; `none` is the spec's own `count`, "a natural number with no upper bound" (R9,
  10_state R23; log 9). -/
  countWidth : Option Nat := none
deriving DecidableEq, Repr

/-- The register of `count` holds `n`: `n < 2^CNT_W`, and any `n` where there is no `CNT_W` (10_state R23). -/
def Config.holdsCount (c : Config) (n : Nat) : Bool :=
  match c.countWidth with
  | none => true
  | some w => decide (n < 2 ^ w)

/-- The constraints `C >= 1`, `L >= 2` (R9) and `2^CNT_W > C` (10_state R23, 92 D7). A configuration outside them is refused (92 D4, D5; 93 U10;
log 6). -/
abbrev Config.Legal (c : Config) : Prop := 1 ≤ c.capacity ∧ 2 ≤ c.frameLen ∧ c.holdsCount c.capacity = true

/-- `PAYLOAD_LEN = L - 2` (R8). -/
def Config.payloadLen (c : Config) : Nat := c.frameLen - 2

/-- `IDX_W`, "the smallest `w >= 1` with `2^w >= C`" (10_state R22). No rule depends on it. -/
def Config.idxW (c : Config) : Nat := max 1 (Nat.clog 2 c.capacity)

/-- `CUR_W`, "the smallest `w` with `2^w >= L + 255`" (42_frame_validator R133). No rule depends on it. -/
def Config.curW (c : Config) : Nat := Nat.clog 2 (c.frameLen + 255)

/-- DESIGN CHOICE (log 1): the configuration of `State.reset`, that of the spec's programs P2 and P5. The spec leaves
both numbers open; no obligation rests on these values. `count` is the spec's own, without a width (log 9). -/
def Config.default : Config := { capacity := 32, frameLen := 16, countWidth := none }

/-- FREE VALUE (log 2): the byte in storage slot `a` before anything has been written there. "The contents of `storage`
are unspecified" after reset (10_state R35; 93 U7, "any value"), so nothing is known of this function. -/
opaque Config.unwritten : Nat → Byte

end Sys2Proof
end

