-- ==== Sys2Proof/Syntax.lean ====
section
/-! DEFINITION. The commands of the core: one constructor per row of spec/opcode_table.json (30_encoding R81). -/

namespace Sys2Proof

/-- The seven commands. A chunk or a frame is a sequence of bytes in stream order (R79, R80). -/
inductive Instr where
  /-- WRITE, format C: store the chunk at the write cursor (41_buffer_ops R110). -/
  | write (data : List Byte)
  /-- READ, format Z: take the byte at the read cursor (R112). -/
  | read
  /-- UTIL, format Z: observe `count`, `C` and `FAULT` (R114). -/
  | util
  /-- FRAME, format Z: try to extract one frame (R115). -/
  | frame
  /-- VALID, format F: check the pointer chain of a frame (42_frame_validator R130). -/
  | valid (frame : List Byte)
  /-- DECODE, format F: decode a frame into a record (43_frame_decoder R140). -/
  | decode (frame : List Byte)
  /-- POLL, format C: one iteration of the decode loop (44_pipeline R150). -/
  | poll (data : List Byte)
deriving DecidableEq, Repr

/-- The opcode byte of a command, all eight bits of byte 0 of its packet (R79, R81). -/
def Instr.opcode : Instr → Byte
  | .write _ => 0x01
  | .read => 0x02
  | .util => 0x03
  | .frame => 0x04
  | .valid _ => 0x05
  | .decode _ => 0x06
  | .poll _ => 0x07

end Sys2Proof
end

