-- ==== Sys2Proof/WellFormed.lean ====
section
/-! DEFINITION. Which terms of `Instr` are commands a packet can carry (30_encoding R79), for a core of frame length `L`. -/

namespace Sys2Proof

/-- A chunk has at most 255 bytes, since its length is one byte; a frame operand has exactly `L` bytes (R79, R80). -/
def Instr.wellFormed (L : Nat) : Instr → Bool
  | .write data => decide (data.length ≤ 255)
  | .read => true
  | .util => true
  | .frame => true
  | .valid operand => decide (operand.length = L)
  | .decode operand => decide (operand.length = L)
  | .poll data => decide (data.length ≤ 255)

/-- The number of bytes of a command's packet (R82): 1 for format Z, `1 + L` for F, `2 + n` for C. -/
def Instr.packetLength (L : Nat) : Instr → Nat
  | .write data => 2 + data.length
  | .read => 1
  | .util => 1
  | .frame => 1
  | .valid _ => 1 + L
  | .decode _ => 1 + L
  | .poll data => 2 + data.length

end Sys2Proof
end

