-- ==== Sys2Proof/Decode.lean ====
section
/-! DEFINITION. The command decoder and its inverse (30_encoding R78 to R86). The decoder reads one item from the front of
the port; it depends on the bytes and on `L` alone (R84). -/

namespace Sys2Proof

/-- What the decoder finds at the front of the port when it finds anything complete: a well-formed command, or an
illegal-opcode item (R84, R86). -/
inductive PortItem where
  | command (i : Instr)
  | illegal (opcode : Byte)
deriving DecidableEq, Repr

/-- The next `n` bytes and the bytes behind them, when the port holds `n` bytes; nothing of an incomplete packet (R83). -/
def takeBytes (n : Nat) (bytes : List Byte) : Option (List Byte × List Byte) :=
  if n ≤ bytes.length then some (bytes.take n, bytes.drop n) else none

/-- Format C (R79, R80): the length byte `n`, unsigned and unscaled, then `n` data bytes. `bytes` starts behind the opcode. -/
def decodeChunk (make : List Byte → Instr) (bytes : List Byte) : Option (PortItem × List Byte) :=
  match bytes with
  | [] => none
  | n :: rest => (takeBytes n.toNat rest).map fun found => (.command (make found.1), found.2)

/-- Format F (R79, R80): exactly `L` frame bytes. `bytes` starts behind the opcode. -/
def decodeFrameOperand (make : List Byte → Instr) (L : Nat) (bytes : List Byte) : Option (PortItem × List Byte) :=
  (takeBytes L bytes).map fun found => (.command (make found.1), found.2)

/-- The item at the front of the port and the bytes behind it (R81, R82, R86); `none` for an empty port or an incomplete
packet, which "is not a command" (R83). A reserved opcode consumes its one byte only (R86). -/
def decode (L : Nat) (bytes : List Byte) : Option (PortItem × List Byte) :=
  match bytes with
  | [] => none
  | op :: rest =>
    match op.toNat with
    | 1 => decodeChunk .write rest
    | 2 => some (.command .read, rest)
    | 3 => some (.command .util, rest)
    | 4 => some (.command .frame, rest)
    | 5 => decodeFrameOperand .valid L rest
    | 6 => decodeFrameOperand .decode L rest
    | 7 => decodeChunk .poll rest
    | _ => some (.illegal op, rest)

/-- Decode items from the front for at most `fuel` items: the items, and the bytes of the incomplete packet left over. -/
def decodeItems (L : Nat) : Nat → List Byte → List PortItem × List Byte
  | 0, bytes => ([], bytes)
  | fuel + 1, bytes =>
    match decode L bytes with
    | none => ([], bytes)
    | some (item, rest) => (item :: (decodeItems L fuel rest).1, (decodeItems L fuel rest).2)

/-- The whole of a byte string as a sequence of items "with at most one incomplete packet at the end" (R84). Every item
takes at least one byte, so the length of the string is fuel enough. -/
def decodeStream (L : Nat) (bytes : List Byte) : List PortItem × List Byte := decodeItems L bytes.length bytes

/-- The packet of a command (R79 to R81): the opcode byte, then its operand bytes in order. -/
def encode (i : Instr) : List Byte :=
  match i with
  | .write data => i.opcode :: BitVec.ofNat 8 data.length :: data
  | .read => [i.opcode]
  | .util => [i.opcode]
  | .frame => [i.opcode]
  | .valid frame => i.opcode :: frame
  | .decode frame => i.opcode :: frame
  | .poll data => i.opcode :: BitVec.ofNat 8 data.length :: data

/-- The length in bytes of the longest packet of a core of frame length `L` (R82). -/
def longestPacket (L : Nat) : Nat := max 257 (1 + L)

/-- `w`, numbered as spec/opcode_table.json numbers bits (byte `k` of the packet is bits `8k+7..8k`), cut to its `nbits`
and laid out as port bytes, with zero bytes behind it up to the longest packet. -/
def tableBytes (L nbits w : Nat) : List Byte :=
  (List.range (longestPacket L)).map fun k => BitVec.ofNat 8 ((w % 2 ^ nbits) >>> (8 * k))

/-- The bytes of the one item that the decoder reads from `tableBytes`, without the zeros behind it. -/
def tablePacket (L nbits w : Nat) : List Byte :=
  match decode L (tableBytes L nbits w) with
  | none => tableBytes L nbits w
  | some (_, rest) => (tableBytes L nbits w).take ((tableBytes L nbits w).length - rest.length)

/-- The command the decoder of the core of `State.reset` reads from a row's word; `none` where it is reserved. -/
def decodeTableWord (nbits w : Nat) : Option Instr :=
  match decode Config.default.frameLen (tableBytes Config.default.frameLen nbits w) with
  | some (.command i, _) => some i
  | some (.illegal _, _) => none
  | none => none

end Sys2Proof
end

