-- ==== Sys2Proof/Machine/State.lean ====
section
/-! DEFINITION. The state of the core (10_state R20), its responses (30_encoding R90), the reasons a step of the model can
stop, and reset (10_state R35, 70_reset_and_hazards R190). -/

namespace Sys2Proof.Machine

/-- Storage: the slots that hold a value, as (index, byte) pairs, indices strictly rising. A slot that is not listed holds
no value yet ("a cell that holds no value", 10_state R35; log 2). -/
abbrev Memory := List Host.Cell

/-- What `Fault(kind, info)` reports (60_exceptions R165, R170): the two faults of the core. -/
inductive FaultKind where
  /-- READ with `count == 0` (R112). -/
  | underflow
  /-- A reserved opcode byte on the command port, with that byte (R86). -/
  | illegalCommand (opcode : Byte)
deriving DecidableEq, Repr

/-- The abnormal outcomes of the core that 60_exceptions R167 numbers, and normal completion. -/
inductive Cause where
  | normal
  | insufficientData
  | malformedFrame
  | overflow
  | underflow
  | illegalCommand
deriving DecidableEq, Repr

/-- The typed responses (30_encoding R90); their wire encoding is the open parameter `RESP_ENC` (92 D3; log 13). -/
inductive Response where
  /-- WRITE: the write cursor position after the chunk. -/
  | pos (p : Nat)
  /-- READ: the byte read. -/
  | byte (b : Byte)
  /-- UTIL: `count`, `C` and `FAULT` as the 3-bit number `4*ILL + 2*UDF + OVF`. -/
  | util (n c : Nat) (f : BitVec 3)
  /-- FRAME and POLL: no frame. -/
  | noFrame
  /-- FRAME: the frame, `L` bytes. -/
  | frame (f : List Byte)
  /-- VALID: the verdict. -/
  | bool (v : Bool)
  /-- DECODE and POLL: the record, `L - 2` bytes. -/
  | record (r : List Byte)
  /-- DECODE and POLL: the `L` raw bytes of a frame that is not valid. -/
  | malformed (raw : List Byte)
  /-- READ on an empty buffer, or a reserved opcode. -/
  | fault (kind : FaultKind)
deriving DecidableEq, Repr

/-- The state of the core: everything 10_state R20 names, and the model's two fields for the command port and the
responses, which the spec has as input and output (log 3, log 4). -/
structure State where
  /-- `C`, `L` and `CNT_W`; no operation writes them (R7, R28). -/
  cfg : Config
  /-- `rd.index`, the read cursor (R21, R22). -/
  rd : Nat
  /-- `wr.index`, the write cursor (R21, R22). -/
  wr : Nat
  /-- The buffered-but-unread bytes; a natural number "with no upper bound", or held in
  `CNT_W` bits where the configuration has that width (R23; log 9). -/
  count : Nat
  /-- The `C` bytes of storage (R24). -/
  storage : Memory
  /-- `FAULT`: bit 0 OVF, bit 1 UDF, bit 2 ILL, all sticky (R27). -/
  faultReg : BitVec 3
  /-- Command bytes delivered and not yet consumed, first byte first (30_encoding R78). -/
  port : List Byte
  /-- The responses given since reset, oldest first (30_encoding R78, R90). -/
  responses : List Response
deriving DecidableEq, Repr

/-- Why the model's machine stops. No state that the core can reach raises it (20_memory R51). -/
inductive Fault where
  /-- Raised by `memRead` and `memWrite` for an index outside `0..C-1`, which does not exist (20_memory R50). SAFE: the
  spec says storage accesses never fault, since a cursor is always in range (R51, 10_state R22); only a state no run
  reaches gets here (log 8). -/
  | storageIndex (index : Nat)
deriving DecidableEq, Repr

/-- Why the model gives no meaning. -/
inductive Refusal where
  /-- Raised by `exec` alone, for a command whose meaning is not written. SAFE. No arm does. -/
  | notModelled (mnemonic : String)
  /-- Raised by every command and by `step` when `C = 0`, `L < 2` or `2^CNT_W <= C`: the spec refuses such a configuration (00_scope
  R9; 10_state R23; 92 D4, D5, D7; 93 U10; log 6). SAFE. -/
  | illegalConfiguration
  /-- Raised by VALID and DECODE for an operand of other than `L` bytes, which no packet can carry: "a model whose functions
  take lists should `refuse` other lengths" (93 U11; log 7). SAFE. -/
  | frameLength (given : Nat)
  /-- Raised by WRITE and POLL, in a realisation whose `count` has `width` bits, for a byte with which `count` would reach `2^width`: what
  the register does then "is outside the spec: refuse" (92 D7; 93 U4; log 9). Without a `CNT_W` it is never raised. SAFE. -/
  | countWidth (width : Nat)
deriving DecidableEq, Repr

/-- The three outcomes, carrying whatever an operation hands on. -/
abbrev Result (α : Type) := Host.Outcome α Fault Refusal

/-- Reset with the configuration `c` (10_state R35, 70_reset_and_hazards R190, the source's `new(capacity)`): cursors, `count`
and `FAULT` are 0; storage is unspecified, so no slot holds a value (log 2). Port and responses start empty (log 3, log 4). -/
def State.resetWith (c : Config) : State :=
  { cfg := c, rd := 0, wr := 0, count := 0, storage := [], faultReg := 0, port := [], responses := [] }

/-- The machine right after reset, at the model's choice of `C` and `L` (DESIGN CHOICE, log 1). -/
def State.reset : State := State.resetWith Config.default

end Sys2Proof.Machine
end

