-- ==== Sys2Proof/Machine/Flags.lean ====
section
/-! DEFINITION. The FAULT register (10_state R27), every computation that sets a bit of it, the codes of the abnormal outcomes
(60_exceptions R167) and the utilisation percentage (41_buffer_ops R114). There are no other flags (10_state R32). -/

namespace Sys2Proof.Machine

/-- `FAULT.OVF`, bit 0 (R27). -/
def ovfBit : BitVec 3 := 1

/-- `FAULT.UDF`, bit 1 (R27). -/
def udfBit : BitVec 3 := 2

/-- `FAULT.ILL`, bit 2 (R27). -/
def illBit : BitVec 3 := 4

def State.ovf (s : State) : Bool := s.faultReg.getLsbD 0
def State.udf (s : State) : Bool := s.faultReg.getLsbD 1
def State.ill (s : State) : Bool := s.faultReg.getLsbD 2

/-- Set a sticky bit; "no operation clears a bit" (R27). -/
def State.setFault (bit : BitVec 3) (s : State) : State := { s with faultReg := s.faultReg ||| bit }

/-- The overflow test of a byte store: `if count >= C: FAULT.OVF <- 1` (41_buffer_ops R110, R111). -/
def State.noteOverflow (s : State) : State := if s.cfg.capacity ≤ s.count then s.setFault ovfBit else s

/-- The code of an outcome (60_exceptions R167). -/
def Cause.code : Cause → Nat
  | .normal => 0
  | .insufficientData => 1
  | .malformedFrame => 2
  | .overflow => 3
  | .underflow => 4
  | .illegalCommand => 5

/-- The FAULT bit an outcome sets (60_exceptions R167); 0 where it sets none. -/
def Cause.bit : Cause → BitVec 3
  | .normal => 0
  | .insufficientData => 0
  | .malformedFrame => 0
  | .overflow => ovfBit
  | .underflow => udfBit
  | .illegalCommand => illBit

/-- Which of the numbered outcomes a fault is (60_exceptions R165, R167). -/
def FaultKind.cause : FaultKind → Cause
  | .underflow => .underflow
  | .illegalCommand _ => .illegalCommand

/-- The outcome a response reports (60_exceptions R167). `NoFrame` after discarded bytes "shares code 1's response"; Overflow is in no response,
it is `FAULT.OVF` (R164). -/
def Response.cause : Response → Cause
  | .pos _ => .normal
  | .byte _ => .normal
  | .util _ _ _ => .normal
  | .noFrame => .insufficientData
  | .frame _ => .normal
  | .bool _ => .normal
  | .record _ => .normal
  | .malformed _ => .malformedFrame
  | .fault kind => kind.cause

/-- `percent(Util(n, c, f)) = 100 * n / c`, the exact rational (41_buffer_ops R114; 92 D13); nothing for other responses. Its
floating-point rendering is the open parameter `PCT_FMT` (log 12). -/
def Response.percent : Response → Option Rat
  | .util n c _ => some (100 * n / c)
  | _ => none

end Sys2Proof.Machine
end

