-- ==== Sys2Proof/Machine/Storage.lean ====
section
/-! DEFINITION. Storage as data (10_state R24): reading and writing one slot of the list, and its canonical form. -/

namespace Sys2Proof.Machine

/-- The byte in slot `i`, if the slot holds a value. What an unlisted slot reads as is "no value" (10_state R35; log 2);
`State.byteAt` says which byte the core sees there. -/
def Memory.read : Memory → Nat → Option Byte
  | [], _ => none
  | (a, b) :: rest, i => if i = a then some b else Memory.read rest i

/-- Put `v` in slot `i`, keeping the indices strictly rising. -/
def Memory.write : Memory → Nat → Byte → Memory
  | [], i, v => [(i, v)]
  | (a, b) :: rest, i, v =>
    if i < a then (i, v) :: (a, b) :: rest
    else if i = a then (i, v) :: rest
    else (a, b) :: Memory.write rest i v

/-- The canonical form: indices strictly rising. An unlisted slot holds no value and an entry always holds one, so no entry
equals what an unlisted slot reads as; two memories of this form that read alike are equal (`Memory.ext_of_wf`). -/
abbrev Memory.wf (m : Memory) : Prop := m.Pairwise fun x y => x.1 < y.1

/-- Every listed slot exists: its index is below the capacity (R24: indexed `0..C-1`). -/
abbrev Memory.within (capacity : Nat) (m : Memory) : Prop := ∀ cell ∈ m, cell.1 < capacity

end Sys2Proof.Machine
end

