-- ==== Sys2Proof/Machine/Ops.lean ====
section
/-! DEFINITION. The named operations of the core over its registers, its storage and its command port: the cursor increment
(40_index_counter R100), MemRead and MemWrite (00_scope notation), the response, raising a fault (60_exceptions R170; there
is no return from one, R172), fetching a packet from the port (30_encoding R78), and the host's inputs. -/

namespace Sys2Proof.Machine

/-- Do `first`, then `next` with what it hands on; a stop of `first` is the stop of the whole. -/
def andThen {α β : Type} (first : Result α) (next : α → Result β) : Result β :=
  match first with
  | .next a => next a
  | .fault f => .fault f
  | .refused r => .refused r

/-- The index after one increment, `(index + 1) mod C` (40_index_counter R100), which is also what INC returns. -/
def incIndex (C index : Nat) : Nat := (index + 1) % C

/-- `inc(rd)` (R100). -/
def State.incRd (s : State) : State := { s with rd := incIndex s.cfg.capacity s.rd }

/-- `inc(wr)` (R100). -/
def State.incWr (s : State) : State := { s with wr := incIndex s.cfg.capacity s.wr }

/-- `count <- n`. -/
def State.withCount (n : Nat) (s : State) : State := { s with count := n }

/-- Put `b` in slot `i` of storage. -/
def State.withByte (i : Nat) (b : Byte) (s : State) : State := { s with storage := s.storage.write i b }

/-- Replace the bytes waiting on the command port. -/
def State.withPort (bytes : List Byte) (s : State) : State := { s with port := bytes }

/-- `return v`: the operation ends and its response is `v` (00_scope notation; every command gives exactly one, 30_encoding
R90). -/
def State.respond (v : Response) (s : State) : State := { s with responses := s.responses ++ [v] }

/-- The byte the core finds in slot `i`: the one last put there, or the free value of a slot that nothing has been written to
(10_state R35; 93 U7; log 2). -/
def State.byteAt (s : State) (i : Nat) : Byte := (s.storage.read i).getD (Config.unwritten i)

/-- `MemRead(i, 1)`, which "requires `0 <= i < C`" (00_scope notation). No other slot exists (20_memory R50; log 8). -/
def memRead (i : Nat) (s : State) : Result Byte :=
  if i < s.cfg.capacity then .next (s.byteAt i) else .fault (.storageIndex i)

/-- `MemWrite(i, 1, b)`, which "requires `0 <= i < C`" (00_scope notation). No other slot exists (20_memory R50; log 8). -/
def memWrite (i : Nat) (b : Byte) (s : State) : Result State :=
  if i < s.cfg.capacity then .next (s.withByte i b) else .fault (.storageIndex i)

/-- `raise kind` (60_exceptions R170): the operation ends, the matching sticky bit is set, "no other register and no storage byte
changes", and the response is `Fault(kind, info)`. Nothing is saved and control goes nowhere. -/
def raise (kind : FaultKind) (s : State) : Result State :=
  .next ((s.setFault kind.cause.bit).respond (.fault kind))

/-- The rules hold only once `C >= 1`, `L >= 2` and `2^CNT_W > C` (00_scope R9, 10_state R23, 70_reset_and_hazards R192); another
configuration is refused (93 U10; log 6). -/
def configured {α : Type} (s : State) (body : Result α) : Result α :=
  if s.cfg.Legal then body else .refused .illegalConfiguration

/-- Go on with a `count` of `n`, when the register of `count` holds `n`; at `n >= 2^CNT_W` a realisation's behaviour "is outside the spec:
refuse" (92 D7; 93 U4; log 9). -/
def counted {α : Type} (n : Nat) (s : State) (body : Result α) : Result α :=
  match s.cfg.countWidth with
  | none => body
  | some w => if n < 2 ^ w then body else .refused (.countWidth w)

/-- Take one packet, or one reserved opcode byte, from the front of the port (30_encoding R78, R86); nothing while the packet is
incomplete (R83). -/
def fetch (s : State) : Option (PortItem × State) :=
  (decode s.cfg.frameLen s.port).map fun found => (found.1, s.withPort found.2)

/-- What a reserved opcode does, once its byte is consumed (30_encoding R86). -/
def rejectOpcode (opcode : Byte) (s : State) : Result State := raise (.illegalCommand opcode) s

/-- The host delivers command bytes; they arrive behind those already on the port (30_encoding R78). An input, not a step. -/
def State.deliver (bytes : List Byte) (s : State) : State := s.withPort (s.port ++ bytes)

/-- The reset input, applied between two commands: "a fresh start", `C` and `L` not changed (70_reset_and_hazards R190). An input,
not a step; it begins a new run (log 11). -/
def State.restart (s : State) : State := State.resetWith s.cfg

end Sys2Proof.Machine
end

