-- ==== Sys2Proof/Machine/Operands.lean ====
section
/-! DEFINITION. The operand forms. Storage is reached through a cursor with post-increment modulo `C` and in no other way
(20_memory R51); a chunk is stored byte by byte, first byte first (R53); a frame operand has exactly `L` bytes (10_state R30). -/

namespace Sys2Proof.Machine

/-- The write access (20_memory R51) as the body of WRITE's loop makes it (41_buffer_ops R110): note an overflow, store at `wr`,
advance `wr`, count the byte, for as long as `count` has room for it (10_state R23). -/
def storeByte (b : Byte) (s : State) : Result State :=
  counted (s.count + 1) s
    (andThen (memWrite s.wr b s.noteOverflow) fun t => .next (t.incWr.withCount (t.count + 1)))

/-- Store the bytes of a chunk in stream order: the loop of WRITE (R110). -/
def storeChunk : List Byte → State → Result State
  | [], s => .next s
  | b :: rest, s => andThen (storeByte b s) (storeChunk rest)

/-- `read1()` (41_buffer_ops R113): take the byte at `rd`, zero the slot, advance `rd`, count it off. It requires `count >= 1`; every
caller assures that, so the natural subtraction is exact (40_index_counter R102). -/
def read1 (s : State) : Result (Byte × State) :=
  andThen (memRead s.rd s) fun b =>
    andThen (memWrite s.rd 0 s) fun t => .next (b, t.incRd.withCount (t.count - 1))

/-- VALID and DECODE take exactly `L` bytes; another length is refused (93 U11; log 7). -/
def frameOperand {α : Type} (frame : List Byte) (s : State) (body : Result α) : Result α :=
  if frame.length = s.cfg.frameLen then body else .refused (.frameLength frame.length)

end Sys2Proof.Machine
end

