-- ==== Sys2Proof/Machine/Buffer.lean ====
section
/-! DEFINITION. The operations of the circular byte buffer: WRITE, READ, UTIL, FRAME (41_buffer_ops). -/

namespace Sys2Proof.Machine

/-- WRITE (R110): store the whole chunk, overflow or not (R111), and respond with the write cursor's position. The source puts no
bound on a chunk; only its packet does (R118; log 15). -/
def execWrite (data : List Byte) (s : State) : Result State :=
  configured s (andThen (storeChunk data s) fun t => .next (t.respond (.pos t.wr)))

/-- READ (R112): the fault Underflow on an empty buffer, else `read1` and its byte. -/
def execRead (s : State) : Result State :=
  configured s
    (if s.count = 0 then raise .underflow s
     else andThen (read1 s) fun found => .next (found.2.respond (.byte found.1)))

/-- UTIL (R114): `Util(count, C, FAULT)`; no state changes. -/
def execUtil (s : State) : Result State :=
  configured s (.next (s.respond (.util s.count s.cfg.capacity s.faultReg)))

/-- The loop of FRAME (R115): `read1` until a zero byte is produced or the budget is spent, the bytes read appended to `got`. -/
def readToZero : Nat → List Byte → State → Result (List Byte × State)
  | 0, got, s => .next (got, s)
  | budget + 1, got, s =>
    andThen (read1 s) fun found =>
      if found.1 = 0 then .next (got ++ [found.1], found.2)
      else readToZero budget (got ++ [found.1]) found.2

/-- FRAME without its response (R115): the frame, if the next `L` bytes are one, and the state with the bytes consumed; they are
"not restored" when there is none (R117). -/
def extractFrame (s : State) : Result (Option (List Byte) × State) :=
  if s.count < s.cfg.frameLen then .next (none, s)
  else andThen (readToZero s.cfg.frameLen [] s) fun found =>
    if found.1.getLast? = some 0 ∧ found.1.length = s.cfg.frameLen then .next (some found.1, found.2)
    else .next (none, found.2)

/-- The response of FRAME (R115, 30_encoding R90). -/
def frameResponse : Option (List Byte) → Response
  | none => .noFrame
  | some f => .frame f

/-- FRAME (R115): one extraction attempt. -/
def execFrame (s : State) : Result State :=
  configured s (andThen (extractFrame s) fun found => .next (found.2.respond (frameResponse found.1)))

end Sys2Proof.Machine
end

