-- ==== Sys2Proof/Machine/Validator.lean ====
section
/-! DEFINITION. The frame validator: VALID and the pointer chain (42_frame_validator). -/

namespace Sys2Proof.Machine

/-- The loop of VALID (R130) from the chain position `cur`: reject a zero or out-of-range position before it is used as an index
(R131); a zero byte accepts only at the last index; otherwise jump by the byte's unsigned value, on naturals, without wrap
(R132). The first argument is the step bound of R134, which never binds (R133). -/
def chainWalk (frame : List Byte) : Nat → Nat → Bool
  | 0, _ => false
  | fuel + 1, cur =>
    if cur = 0 then false
    else
      match frame[cur]? with
      | none => false
      | some b => if b = 0 then decide (cur = frame.length - 1) else chainWalk frame fuel (cur + b.toNat)

/-- `VALID(frame)` (R130): the last byte is zero, and the chain from the first byte's value ends exactly on it. `L` is the length of
the frame. -/
def validFrame (frame : List Byte) : Bool :=
  match frame with
  | [] => false
  | first :: _ => decide (frame.getLast? = some 0) && chainWalk frame frame.length first.toNat

/-- VALID (R130): the verdict; no state of the core is read or changed. -/
def execValid (frame : List Byte) (s : State) : Result State :=
  configured s (frameOperand frame s (.next (s.respond (.bool (validFrame frame)))))

end Sys2Proof.Machine
end

