-- ==== Sys2Proof/Machine/FrameDecoder.lean ====
section
/-! DEFINITION. The frame decoder: DECODE and `unstuff` (43_frame_decoder). -/

namespace Sys2Proof.Machine

/-- The indices a walk from `cur` visits before a zero byte ends it (R141). The first argument bounds the walk (R134). -/
def visitedFrom (frame : List Byte) : Nat → Nat → List Nat
  | 0, _ => []
  | fuel + 1, cur =>
    match frame[cur]? with
    | none => []
    | some b => if b = 0 then [] else cur :: visitedFrom frame fuel (cur + b.toNat)

/-- `visited` (R141): index 0, "the first index which is structural", then every pointer position of the chain. -/
def visited (frame : List Byte) : List Nat :=
  match frame with
  | [] => []
  | first :: _ => 0 :: visitedFrom frame frame.length first.toNat

/-- `frame[1..L-1)`, the interior bytes: first and last are stripped (00_scope R8, R141). -/
def frameInterior (frame : List Byte) : List Byte := (frame.drop 1).take (frame.length - 2)

/-- `for each i in positions: out[i-1] <- 0` (R141). -/
def zeroAt (out : List Byte) (positions : List Nat) : List Byte :=
  positions.foldl (fun acc i => acc.set (i - 1) 0) out

/-- `unstuff(frame)` (R141), for valid frames: copy the interior, then restore a zero at every visited index but the first. The fast
path of R143 is the case where nothing is zeroed. -/
def unstuff (frame : List Byte) : List Byte := zeroAt (frameInterior frame) (visited frame).tail

/-- `DECODE(frame)` (R140): validity first, then the record, or the raw bytes and no record (R144). -/
def decodeResponse (frame : List Byte) : Response :=
  if validFrame frame then .record (unstuff frame) else .malformed frame

/-- DECODE (R140): the response; no state of the core is read or changed. -/
def execDecode (frame : List Byte) (s : State) : Result State :=
  configured s (frameOperand frame s (.next (s.respond (decodeResponse frame))))

end Sys2Proof.Machine
end

