-- ==== Sys2Proof/Machine/Pipeline.lean ====
section
/-! DEFINITION. The pipeline: POLL (44_pipeline). -/

namespace Sys2Proof.Machine

/-- The response of POLL to an extraction (R150): `NoFrame`, or what DECODE says of the frame. -/
def pollResponse : Option (List Byte) → Response
  | none => .noFrame
  | some f => decodeResponse f

/-- POLL (R150): WRITE the chunk (its response dropped), try one FRAME, DECODE what it gives. A frame that DECODE rejects stays
consumed. -/
def execPoll (data : List Byte) (s : State) : Result State :=
  configured s
    (andThen (storeChunk data s) fun t =>
      andThen (extractFrame t) fun found => .next (found.2.respond (pollResponse found.1)))

end Sys2Proof.Machine
end

