-- ==== Sys2Proof/Machine/Dispatch.lean ====
section
/-! DEFINITION. Which meaning each command has: one arm per constructor of `Instr` (30_encoding R81). -/

namespace Sys2Proof.Machine

def exec (i : Instr) (s : State) : Host.Outcome State Fault Refusal :=
  match i with
  | .write data => Sys2Proof.Machine.execWrite data s
  | .read => Sys2Proof.Machine.execRead s
  | .util => Sys2Proof.Machine.execUtil s
  | .frame => Sys2Proof.Machine.execFrame s
  | .valid frame => Sys2Proof.Machine.execValid frame s
  | .decode frame => Sys2Proof.Machine.execDecode frame s
  | .poll data => Sys2Proof.Machine.execPoll data s

end Sys2Proof.Machine
end

