-- ==== Sys2Proof/Machine/Step.lean ====
section
/-! DEFINITION. One step of the core: take one packet from the command port, perform it, respond (30_encoding R78). -/

namespace Sys2Proof.Machine

/-- One step. A complete packet is consumed and performed; a reserved opcode byte is consumed and answered (R86); on an empty port or
an incomplete packet "the core performs nothing and changes no state" (R83), so it stays as it is (60_exceptions R186; log 5). -/
def step (s : State) : Host.Outcome State Fault Refusal :=
  configured s
    (match fetch s with
    | none => .next s
    | some (.command i, t) => exec i t
    | some (.illegal b, t) => rejectOpcode b t)

/-- `s` with the packet of a row's word at the front of the port, so that the next step runs it; it stands for the host's delivery of
those bytes (log 3, log 16). Nothing else changes. -/
def State.withFetchWord (s : State) (nbits w : Nat) : State :=
  s.withPort (tablePacket s.cfg.frameLen nbits w ++ s.port)

end Sys2Proof.Machine
end

