-- ==== Sys2Proof/Machine/Pseudo.lean ====
section
/-! DEFINITION. The assembler's side of the command port (30_encoding R88, R89): programs as bytes, the pseudo-instructions, and running a
sequence of commands. `RESET` is the reset event, `State.restart`, not a packet (R89). -/

namespace Sys2Proof.Machine

/-- The port bytes of a listing of commands (R88). -/
def assemble (commands : List Instr) : List Byte := commands.flatMap encode

/-- `WRB d` is `WRITE d` (R89). -/
def pseudoWrb (d : Byte) : List Instr := [.write [d]]

/-- `NEXT` is `POLL` with no data (R89). -/
def pseudoNext : List Instr := [.poll []]

/-- `DRAIN k` is `k` READ commands in a row (R89). -/
def pseudoDrain (k : Nat) : List Instr := List.replicate k .read

/-- At most `fuel` cuts of a chunk into pieces of 255 bytes and a last piece of at most 255. -/
def splitChunk : Nat → List Byte → List (List Byte)
  | 0, data => [data]
  | fuel + 1, data => if data.length ≤ 255 then [data] else data.take 255 :: splitChunk fuel (data.drop 255)

/-- A `WRITE` of any length: "split by the assembler into consecutive WRITE packets of at most 255 bytes each, in order" (R89). -/
def pseudoWrite (data : List Byte) : List Instr := (splitChunk data.length data).map .write

/-- A `POLL` of any length: up to 255 bytes it is one packet; a longer one is "`WRITE` of all but the last 255 bytes followed by `POLL` of the
last 255" (R89). -/
def pseudoPoll (data : List Byte) : List Instr :=
  if data.length ≤ 255 then [.poll data]
  else pseudoWrite (data.take (data.length - 255)) ++ [.poll (data.drop (data.length - 255))]

/-- Perform commands in the order the host issues them, each from the state the one before it left (20_memory R60). -/
def execAll : List Instr → State → Result State
  | [], s => .next s
  | i :: rest, s => andThen (exec i s) (execAll rest)

end Sys2Proof.Machine
end

