-- ==== Sys2Proof/Safety.lean ====
section
/-! DEFINITION. The terms claims are stated in: the invariant of the buffer (10_state R26), what unread bytes are, the state after a
run of reads, the chain of a frame (42_frame_validator R132, R135), the inverse of the decoder (43_frame_decoder R146), and
which response each command gives (30_encoding R90). No operation of the core uses them. -/

namespace Sys2Proof.Machine

/-- A legal configuration and both cursors in range (00_scope R9, 10_state R22): what the commands need to be performed. -/
abbrev State.Ready (s : State) : Prop :=
  s.cfg.Legal ∧ s.rd < s.cfg.capacity ∧ s.wr < s.cfg.capacity

/-- `count` has room for `n` more bytes: none to count, or a sum that the register of `count` holds (10_state R23). It is always so where the
configuration has no `CNT_W`. -/
abbrev State.Room (s : State) (n : Nat) : Prop := n = 0 ∨ s.cfg.holdsCount (s.count + n) = true

/-- The invariant of the buffer: R22 (cursors in range), R23 (`count` fits its register), R24 (storage holds slots `0..C-1` and nothing else, in canonical form), R26 (a)
(`count <= C` while no overflow has happened), R26 (b) (`wr == (rd + count) mod C`) and R34 (c) (every unread slot has been written). -/
structure State.Inv (s : State) : Prop where
  ready : s.Ready
  held : s.cfg.holdsCount s.count = true
  canonical : s.storage.wf
  inRange : s.storage.within s.cfg.capacity
  bounded : s.ovf = false → s.count ≤ s.cfg.capacity
  cursors : s.wr = (s.rd + s.count) % s.cfg.capacity
  written : ∀ k < s.count, s.storage.read ((s.rd + k) % s.cfg.capacity) ≠ none

/-- The states a core of configuration `c` can be in: reset, then steps and deliveries of any bytes by the host, in any order. -/
inductive Reachable (c : Config) : State → Prop where
  | reset : Reachable c (State.resetWith c)
  | deliver {s : State} (bytes : List Byte) : Reachable c s → Reachable c (s.deliver bytes)
  | step {s t : State} : Reachable c s → Machine.step s = .next t → Reachable c t

/-- The `k`-th byte (from 0) that a run of reads takes from `s`: the slot `k` places on from the read cursor, or, once the run has gone all
the way round, the zero it left there itself (10_state R34 (a)). -/
def State.aheadByte (s : State) (k : Nat) : Byte :=
  if k < s.cfg.capacity then s.byteAt ((s.rd + k) % s.cfg.capacity) else 0

/-- The next `n` bytes a run of reads takes. -/
def State.ahead (s : State) (n : Nat) : List Byte := (List.range n).map s.aheadByte

/-- The buffered-but-unread bytes, oldest first (10_state R26 (c)). -/
def State.unread (s : State) : List Byte := s.ahead s.count

/-- Storage after `n` read accesses from index `i`: each slot zeroed in turn (41_buffer_ops R113). -/
def zeroSlots (C : Nat) : Nat → Nat → Memory → Memory
  | 0, _, m => m
  | n + 1, i, m => zeroSlots C n (incIndex C i) (m.write i 0)

/-- The state after `j` bytes have been consumed: `rd` advances by `j` modulo `C`, `count` drops by `j`, "and the `j` slots read are zeroed"
(41_buffer_ops R115). -/
def State.consumed (j : Nat) (s : State) : State :=
  { s with rd := (s.rd + j) % s.cfg.capacity, count := s.count - j, storage := zeroSlots s.cfg.capacity j s.rd s.storage }

/-- The state after one byte has been stored: an overflow noted, the byte in the slot at `wr`, `wr` advanced, `count` incremented (41_buffer_ops
R110, R111). -/
def State.storedByte (s : State) (b : Byte) : State :=
  ((s.noteOverflow.withByte s.wr b).incWr).withCount (s.count + 1)

/-- The state after a chunk has been stored, first byte first. -/
def State.stored (s : State) (data : List Byte) : State := data.foldl State.storedByte s

/-- The state `s` with `FAULT` holding `f` instead. -/
def State.withFaultReg (f : BitVec 3) (s : State) : State := { s with faultReg := f }

/-- The state `s` with other responses. -/
def State.withResponses (r : List Response) (s : State) : State := { s with responses := r }

/-- The state `s` on the core whose `count` is the spec's own, without a width (10_state R23). -/
def State.withoutCountWidth (s : State) : State := { s with cfg := { s.cfg with countWidth := none } }

/-- `p` is a position of the chain of `frame` (R132): the first byte's value, or a position reached by a jump from a non-zero byte at a
position in `1..L-1`. -/
inductive OnChain (frame : List Byte) : Nat → Prop where
  | first {b : Byte} : frame[0]? = some b → OnChain frame b.toNat
  | jump {p : Nat} {b : Byte} : OnChain frame p → 1 ≤ p → frame[p]? = some b → b ≠ 0 → OnChain frame (p + b.toNat)

/-- `positions` is `i_0, ..., i_m` of the closed form R135: from index 0 to the last index, `m >= 1`, each index but the last holding a non-zero
byte whose value is the distance to the next. -/
def IsPointerChain (frame : List Byte) (positions : List Nat) : Prop :=
  2 ≤ positions.length ∧ positions.head? = some 0 ∧ positions.getLast? = some (frame.length - 1) ∧
    positions.IsChain fun i j => ∃ b, frame[i]? = some b ∧ b ≠ 0 ∧ j = i + b.toNat

/-- One more than the number of bytes before the first zero of `rest`, or before its end: the distance from a pointer to the next pointer or
to the terminator, when `rest` is the payload behind it (R146). -/
def gap (rest : List Byte) : Nat := (rest.takeWhile (· ≠ 0)).length + 1

/-- The frame bytes for the payload bytes, with the terminator behind them: a zero byte becomes the pointer over the gap behind it (R146). -/
def stuffRest : List Byte → List Byte
  | [] => [0]
  | b :: rest => (if b = 0 then BitVec.ofNat 8 (gap rest) else b) :: stuffRest rest

/-- `stuff(P)` (R146). Not an operation of the core. -/
def stuff (payload : List Byte) : List Byte := BitVec.ofNat 8 (gap payload) :: stuffRest payload

/-- Every gap behind a zero byte of the payload is at most 255. -/
def gapsFit : List Byte → Bool
  | [] => true
  | b :: rest => (decide (b ≠ 0) || decide (gap rest ≤ 255)) && gapsFit rest

/-- "Every gap `i_{t+1} - i_t` is at most 255" (R146). -/
def stuffable (payload : List Byte) : Bool := decide (gap payload ≤ 255) && gapsFit payload

/-- The response `r` is one that 30_encoding R90 gives the command, performed from `s` with `t` the state after it. -/
def responseAllowed (s t : State) : Instr → Response → Prop
  | .write _, r => r = .pos t.wr ∧ t.wr < s.cfg.capacity
  | .read, r => (∃ b, r = .byte b) ∨ r = .fault .underflow
  | .util, r => r = .util s.count s.cfg.capacity s.faultReg
  | .frame, r => r = .noFrame ∨ ∃ f, f.length = s.cfg.frameLen ∧ r = .frame f
  | .valid _, r => ∃ v, r = .bool v
  | .decode raw, r => (∃ rec, rec.length = s.cfg.payloadLen ∧ r = .record rec) ∨ r = .malformed raw ∧ raw.length = s.cfg.frameLen
  | .poll _, r => r = .noFrame ∨ (∃ rec, rec.length = s.cfg.payloadLen ∧ r = .record rec) ∨
      ∃ raw, raw.length = s.cfg.frameLen ∧ r = .malformed raw

/-- The bytes a command writes into the buffer. -/
def bytesWritten : Instr → List Byte
  | .write data => data
  | .poll data => data
  | .read => []
  | .util => []
  | .frame => []
  | .valid _ => []
  | .decode _ => []

/-- The port bytes an item of the decoder stands for. -/
def portBytes : PortItem → List Byte
  | .command i => encode i
  | .illegal b => [b]

end Sys2Proof.Machine
end

