-- ==== Sys2Proof/Certificates/Slice0/Obligations.lean ====
section
/-! DEFINITION. The statements for the provers. Each names the rule of spec/ it formalises; a state's configuration is any legal one, so each
speaks of every `C >= 1` and `L >= 2`, of the spec's own `count` and of a `count` of any width `CNT_W` with `2^CNT_W > C`.
`State.Room` (`count` fits its register after the bytes to be stored) is always met without a `CNT_W`, and with one until `count` would reach
`2^CNT_W`, where the spec gives no behaviour (93 U4). -/

open Sys2Proof Sys2Proof.Machine

/-- The packets of 95_test_vectors V63 to V70 (`L = 4`) and one of every command, written out from the map of 30_encoding R81, decode to
the commands they stand for. -/
def Obligations.SpecPacketsDecode : Prop :=
  decode 4 [0x01, 0x04, 0x03, 0x07, 0x09, 0x00, 0x04] = some (.command (.write [3, 7, 9, 0]), [0x04]) ∧
  decode 4 [0x04, 0x06] = some (.command .frame, [0x06]) ∧
  decode 4 [0x06, 0x03, 0x07, 0x09, 0x00] = some (.command (.decode [3, 7, 9, 0]), []) ∧
  decode 4 [0x05, 0x03, 0x07, 0x09, 0x00, 0xFF] = some (.command (.valid [3, 7, 9, 0]), [0xFF]) ∧
  decode 4 [0x00] = some (.illegal 0x00, []) ∧ decode 4 [0x08, 0x02] = some (.illegal 0x08, [0x02]) ∧
  decode 4 [0xFF] = some (.illegal 0xFF, []) ∧ decode 4 [0x02] = some (.command .read, []) ∧
  decode 4 [0x03] = some (.command .util, []) ∧ decode 4 [0x07, 0x00] = some (.command (.poll []), []) ∧
  decode 4 [0x07, 0x02, 0x09, 0x08] = some (.command (.poll [9, 8]), []) ∧
  decode 4 [0x01, 0x00, 0x02] = some (.command (.write []), [0x02]) ∧
  decode 4 [0x01, 0x03, 0x09, 0x09] = none ∧ decode 4 [0x05, 0x03, 0x07, 0x09] = none

/-- Decode and encode agree (R79 to R82): the packet of every well-formed command, whatever bytes follow it, decodes to that command and
leaves those bytes. -/
def Obligations.DecodeEncodeRoundTrip : Prop :=
  ∀ (L : Nat) (i : Instr) (rest : List Byte), i.wellFormed L = true →
    decode L (encode i ++ rest) = some (.command i, rest)

/-- The other direction: whatever the decoder reads as a command is a well-formed one, and the bytes it took are its packet. -/
def Obligations.DecodedCommandIsItsPacket : Prop :=
  ∀ (L : Nat) (i : Instr) (bytes rest : List Byte), decode L bytes = some (.command i, rest) →
    i.wellFormed L = true ∧ bytes = encode i ++ rest

/-- A packet, once complete, is not changed by bytes delivered behind it (R78, R84). -/
def Obligations.LaterBytesKeepDecoding : Prop :=
  ∀ (L : Nat) (item : PortItem) (bytes rest more : List Byte), decode L bytes = some (item, rest) →
    decode L (bytes ++ more) = some (item, rest ++ more)

/-- R84: for any byte string the decoder yields a sequence of items, with at most one incomplete packet at the end, and the items are the
bytes in order; a listing of well-formed commands decodes to itself. -/
def Obligations.StreamDecodesToItems : Prop :=
  (∀ (L : Nat) (bytes : List Byte),
    (decodeStream L bytes).1.flatMap portBytes ++ (decodeStream L bytes).2 = bytes ∧
    decode L (decodeStream L bytes).2 = none ∧
    (∀ i, .command i ∈ (decodeStream L bytes).1 → i.wellFormed L = true) ∧
    ∀ b, .illegal b ∈ (decodeStream L bytes).1 → b.toNat = 0 ∨ 8 ≤ b.toNat) ∧
  ∀ (L : Nat) (commands : List Instr) (partial_ : List Byte), (∀ i ∈ commands, i.wellFormed L = true) →
    decode L partial_ = none → decodeStream L (assemble commands ++ partial_) = (commands.map .command, partial_)

/-- R86: on a reserved opcode byte the core consumes that byte only, sets `FAULT.ILL`, changes nothing else and responds
`Fault(IllegalCommand, b)`. -/
def Obligations.ReservedOpcodeIsRejected : Prop :=
  ∀ (s : State) (b : Byte) (rest : List Byte), s.cfg.Legal → s.port = b :: rest → b.toNat = 0 ∨ 8 ≤ b.toNat →
    step s = .next { s with
      port := rest
      faultReg := s.faultReg ||| 0b100#3
      responses := s.responses ++ [.fault (.illegalCommand b)] }

/-- R83: while a packet is incomplete (any proper part of it from its front, nothing included) the core performs nothing and changes no
state. That the machine then steps to the same state, and does not stop, is the model's choice (log 5). -/
def Obligations.IncompletePacketChangesNothing : Prop :=
  ∀ (s : State) (i : Instr) (k : Nat), s.cfg.Legal → i.wellFormed s.cfg.frameLen = true → k < (encode i).length →
    s.port = (encode i).take k → step s = .next s

/-- R78: when a packet stands complete at the front of the port, one step consumes it and performs its command. -/
def Obligations.StepRunsDecodedCommand : Prop :=
  ∀ (s : State) (i : Instr) (rest : List Byte), s.cfg.Legal → decode s.cfg.frameLen s.port = some (.command i, rest) →
    step s = exec i { s with port := rest }

/-- R35 and R190: after reset the cursors, `count` and `FAULT` are 0 and `C` and `L` keep their values, for the first reset and for a later one. -/
def Obligations.ResetValues : Prop :=
  (∀ c : Config, (State.resetWith c).rd = 0 ∧ (State.resetWith c).wr = 0 ∧ (State.resetWith c).count = 0 ∧
    (State.resetWith c).faultReg = 0 ∧ (State.resetWith c).cfg = c) ∧
  ∀ s : State, s.restart.rd = 0 ∧ s.restart.wr = 0 ∧ s.restart.count = 0 ∧ s.restart.faultReg = 0 ∧ s.restart.cfg = s.cfg

/-- Reset meets the invariant (R22, R26), at every legal configuration and at the model's own. -/
def Obligations.ResetMeetsInvariant : Prop :=
  (∀ c : Config, c.Legal → (State.resetWith c).Inv) ∧ State.reset.Inv

/-- Every step keeps the invariant of the buffer (R22, R24, R26 (a), R26 (b), R34 (c)). -/
def Obligations.StepKeepsInvariant : Prop :=
  ∀ s t : State, s.Inv → step s = .next t → t.Inv

/-- R171: no step of the spec's own machine (`count` without a width) stops from a state that meets the invariant; the core never crashes. With
a `CNT_W` a step answers whenever `count` has room for the bytes the command writes, and the one stop is the refusal of 93 U4 (of the whole command: log 9). That a step on an empty port or an
incomplete packet answers too, with the same state, is the model's choice (log 5; 93 U9 calls that case stuck, waiting for bytes). -/
def Obligations.StepAlwaysAnswers : Prop :=
  ∀ s : State, s.Inv →
    (s.cfg.countWidth = none → ∃ t, step s = .next t) ∧
    ((∀ i rest, decode s.cfg.frameLen s.port = some (.command i, rest) → s.Room (bytesWritten i).length) → ∃ t, step s = .next t) ∧
    ((∃ t, step s = .next t) ∨ ∃ w, s.cfg.countWidth = some w ∧ step s = .refused (.countWidth w))

/-- R22, R23 and R26 at every point of every run, whatever bytes the host delivers and when: the cursors are in range and fit their width, `count`
fits its own and is bounded by `C` while no overflow has happened, `wr == (rd + count) mod C`, and the configuration is the one of reset. -/
def Obligations.ReachableStatesMeetInvariant : Prop :=
  ∀ (c : Config) (s : State), c.Legal → Reachable c s →
    s.Inv ∧ s.cfg = c ∧ s.rd < 2 ^ c.idxW ∧ s.wr < 2 ^ c.idxW ∧ (∀ w, c.countWidth = some w → s.count < 2 ^ w) ∧
    (s.ovf = false → s.count ≤ c.capacity)

/-- R100 and R101: an increment wraps to zero at capacity; `k` of them from `i` lead to `(i + k) mod C`; `C` of them lead back. -/
def Obligations.IncrementIsCyclic : Prop :=
  ∀ C i : Nat, i < C →
    incIndex C (C - 1) = 0 ∧ (∀ k, (incIndex C)^[k] i = (i + k) % C) ∧ (incIndex C)^[C] i = i

/-- R110: WRITE completes for every chunk that `count` has room for, stores its bytes in order from the write cursor, advances it by their number, adds that to `count`
and responds with the new position; a byte is what its slot holds unless a later one of the chunk took the slot. `FAULT.OVF` is set
just when a byte was stored at `count >= C` (R111). Everything else stays as it was: the frame of WRITE. -/
def Obligations.WriteStoresChunk : Prop :=
  ∀ (s : State) (data : List Byte), s.Ready → s.Room data.length → ∃ t, exec (.write data) s = .next t ∧
    t.wr = (s.wr + data.length) % s.cfg.capacity ∧ t.count = s.count + data.length ∧
    t.responses = s.responses ++ [.pos t.wr] ∧
    (∀ k < data.length, data.length ≤ k + s.cfg.capacity →
      t.storage.read ((s.wr + k) % s.cfg.capacity) = data[k]?) ∧
    (t.ovf = true ↔ s.ovf = true ∨ data ≠ [] ∧ s.cfg.capacity < s.count + data.length) ∧
    t.udf = s.udf ∧ t.ill = s.ill ∧ t.rd = s.rd ∧ t.cfg = s.cfg ∧ t.port = s.port ∧
    ∀ a, (∀ k < data.length, a ≠ (s.wr + k) % s.cfg.capacity) → t.storage.read a = s.storage.read a

/-- R111: a byte written while `count >= C` is stored at `wr` like any other, `wr` advances, `count` is incremented, `rd` does not move, and
`FAULT.OVF` is set; written while `count < C` it does the same and sets nothing. -/
def Obligations.OverflowingByteIsStored : Prop :=
  ∀ (s : State) (b : Byte), s.Ready → s.Room 1 → ∃ t, exec (.write [b]) s = .next t ∧
    t = { s with
      storage := t.storage
      wr := (s.wr + 1) % s.cfg.capacity
      count := s.count + 1
      faultReg := if s.cfg.capacity ≤ s.count then s.faultReg ||| 0b001#3 else s.faultReg
      responses := s.responses ++ [.pos ((s.wr + 1) % s.cfg.capacity)] } ∧
    t.storage.read s.wr = some b ∧ ∀ a, a ≠ s.wr → t.storage.read a = s.storage.read a

/-- R118, the concatenation law: two WRITEs in a row leave what one WRITE of both chunks leaves, and the second responds as it does. -/
def Obligations.WritesConcatenate : Prop :=
  ∀ (s : State) (a b : List Byte), s.Ready → s.Room (a ++ b).length → ∃ t u v : State, ∃ p q : Response,
    exec (.write a) s = .next t ∧ exec (.write b) t = .next u ∧ exec (.write (a ++ b)) s = .next v ∧
    v.responses = s.responses ++ [q] ∧ u = v.withResponses (s.responses ++ [p, q])

/-- R89: a WRITE of any length, split by the assembler, is a sequence of well-formed packets whose final state is that of one undivided write,
and whose last response is the response of that write. -/
def Obligations.LongWriteIsUndivided : Prop :=
  ∀ (s : State) (data : List Byte), s.Ready → s.Room data.length →
    (∀ i ∈ pseudoWrite data, i.wellFormed s.cfg.frameLen = true) ∧
    ∃ t u : State, exec (.write data) s = .next t ∧ execAll (pseudoWrite data) s = .next u ∧
      t = u.withResponses t.responses ∧ u.responses.getLast? = t.responses.getLast?

/-- R112 and R113: READ on an empty buffer sets `FAULT.UDF`, responds `Fault(Underflow)` and changes nothing else; otherwise it responds with
the byte at the read cursor, zeroes that slot, advances `rd` and decrements `count`, and changes nothing else. -/
def Obligations.ReadTakesOneByte : Prop :=
  ∀ s : State, s.Ready →
    (s.count = 0 → exec .read s = .next { s with
      faultReg := s.faultReg ||| 0b010#3
      responses := s.responses ++ [.fault .underflow] }) ∧
    (s.count ≠ 0 → ∃ t, exec .read s = .next t ∧
      t = { s with
        storage := t.storage
        rd := (s.rd + 1) % s.cfg.capacity
        count := s.count - 1
        responses := s.responses ++ [.byte (s.byteAt s.rd)] } ∧
      t.storage.read s.rd = some 0 ∧ ∀ a, a ≠ s.rd → t.storage.read a = s.storage.read a)

/-- R34 (c): at every point of every run, the byte READ returns is one that was written: the free value of a slot that holds none is never
returned. -/
def Obligations.ReadReturnsWrittenByte : Prop :=
  ∀ (c : Config) (s : State), c.Legal → Reachable c s → s.count ≠ 0 → ∃ b t,
    s.storage.read s.rd = some b ∧ exec .read s = .next t ∧ t.responses = s.responses ++ [.byte b]

/-- R114: UTIL responds `Util(count, C, FAULT)` and changes nothing; the percentage is the exact rational `100 * count / C`, and strictly
between 0 and 100 for `0 < count < C`. -/
def Obligations.UtilObservesFillLevel : Prop :=
  ∀ s : State, s.cfg.Legal →
    exec .util s = .next { s with responses := s.responses ++ [.util s.count s.cfg.capacity s.faultReg] } ∧
    ∃ q : Rat, (Response.util s.count s.cfg.capacity s.faultReg).percent = some q ∧
      q * s.cfg.capacity = 100 * s.count ∧ (0 < s.count → s.count < s.cfg.capacity → 0 < q ∧ q < 100)

/-- R120, the utilisation law: after reset and writes totalling `k` bytes, UTIL responds `Util(k, C, f)`, with `f.OVF = 0` if `k <= C`. -/
def Obligations.UtilisationAfterWrites : Prop :=
  ∀ (c : Config) (chunks : List (List Byte)), c.Legal → c.holdsCount chunks.flatten.length = true → ∃ t f,
    execAll (chunks.map .write ++ [.util]) (State.resetWith c) = .next t ∧
    t.responses.getLast? = some (.util chunks.flatten.length c.capacity f) ∧
    (chunks.flatten.length ≤ c.capacity → f.getLsbD 0 = false) ∧
    (Response.util chunks.flatten.length c.capacity f).percent =
      some ((100 : Rat) * (chunks.flatten.length : Rat) / (c.capacity : Rat))

/-- R115: the four outcomes of FRAME. Insufficient data; terminator too early; no terminator in the budget; a frame. In each the bytes
consumed, and nothing else, leave the buffer. -/
def Obligations.FrameOutcomes : Prop :=
  ∀ s : State, s.Ready →
    (s.count < s.cfg.frameLen → exec .frame s = .next (s.withResponses (s.responses ++ [.noFrame]))) ∧
    (s.cfg.frameLen ≤ s.count →
      (∀ j, j + 1 < s.cfg.frameLen → s.aheadByte j = 0 → (∀ k < j, s.aheadByte k ≠ 0) →
        exec .frame s = .next ((s.consumed (j + 1)).withResponses (s.responses ++ [.noFrame]))) ∧
      ((∀ k < s.cfg.frameLen, s.aheadByte k ≠ 0) →
        exec .frame s = .next ((s.consumed s.cfg.frameLen).withResponses (s.responses ++ [.noFrame]))) ∧
      (s.aheadByte (s.cfg.frameLen - 1) = 0 → (∀ k < s.cfg.frameLen - 1, s.aheadByte k ≠ 0) →
        exec .frame s =
          .next ((s.consumed s.cfg.frameLen).withResponses (s.responses ++ [.frame (s.ahead s.cfg.frameLen)]))))

/-- R116: a frame FRAME returns has `L` bytes, ends in zero and holds no other zero; such a frame can be invalid only by a chain position
`>= L`. -/
def Obligations.ReturnedFrameShape : Prop :=
  ∀ (s t : State) (f : List Byte), exec .frame s = .next t → t.responses = s.responses ++ [.frame f] →
    f.length = s.cfg.frameLen ∧ f[s.cfg.frameLen - 1]? = some 0 ∧
    (∀ k < s.cfg.frameLen - 1, ∃ b, f[k]? = some b ∧ b ≠ 0) ∧
    (validFrame f = false → ∃ p, OnChain f p ∧ s.cfg.frameLen ≤ p)

/-- R117: after a FRAME that consumed bytes, either the read cursor stands just behind a zero byte, or the FRAME consumed `L` non-zero bytes. -/
def Obligations.FrameRealignsBehindZero : Prop :=
  ∀ s t : State, s.Ready → exec .frame s = .next t → t.count < s.count →
    t.rd = (s.rd + (s.count - t.count)) % s.cfg.capacity ∧
    (s.aheadByte (s.count - t.count - 1) = 0 ∨
      s.count - t.count = s.cfg.frameLen ∧ ∀ k < s.cfg.frameLen, s.aheadByte k ≠ 0)

/-- The frame of READ and FRAME (R51, R55): with `n` the bytes they took off `count`, only `rd`, `count`, the `n` slots from the old read cursor
on (zeroed), the responses, and on an underflow `FAULT.UDF`, change. -/
def Obligations.ReadersTouchOnlyConsumedSlots : Prop :=
  ∀ (i : Instr) (s t : State), i = .read ∨ i = .frame → s.Ready → exec i s = .next t →
    t.count ≤ s.count ∧ t.rd = (s.rd + (s.count - t.count)) % s.cfg.capacity ∧
    (∀ k < s.count - t.count, t.storage.read ((s.rd + k) % s.cfg.capacity) = some 0) ∧
    (∀ a, (∀ k < s.count - t.count, a ≠ (s.rd + k) % s.cfg.capacity) → t.storage.read a = s.storage.read a) ∧
    t.wr = s.wr ∧ t.cfg = s.cfg ∧ t.port = s.port ∧ t.ovf = s.ovf ∧ t.ill = s.ill ∧
    (t.udf ≠ s.udf → i = .read ∧ s.count = 0)

/-- R130 and R135: VALID answers every `L`-byte operand and changes nothing; its verdict is true just when the last byte is zero and a chain of
pointers leads from index 0 to the last index, and such a chain is unique. -/
def Obligations.ValidMeetsClosedForm : Prop :=
  (∀ (s : State) (f : List Byte), s.cfg.Legal → f.length = s.cfg.frameLen →
    ∃ v, exec (.valid f) s = .next { s with responses := s.responses ++ [.bool v] } ∧
      (v = true ↔ f[s.cfg.frameLen - 1]? = some 0 ∧ ∃ positions, IsPointerChain f positions)) ∧
  ∀ (f : List Byte) (is js : List Nat), IsPointerChain f is → IsPointerChain f js → is = js

/-- R76: VALID answers false in exactly four cases: the last byte is not zero; the first byte is zero; a chain position is `>= L`; the chain
reaches a zero byte below index `L - 1`. -/
def Obligations.IllFormedFrameCases : Prop :=
  ∀ (s : State) (f : List Byte), s.cfg.Legal → f.length = s.cfg.frameLen →
    (exec (.valid f) s = .next (s.withResponses (s.responses ++ [.bool false])) ↔
      f[s.cfg.frameLen - 1]? ≠ some 0 ∨ f[0]? = some 0 ∨ (∃ p, OnChain f p ∧ s.cfg.frameLen ≤ p) ∨
        ∃ p, OnChain f p ∧ p < s.cfg.frameLen - 1 ∧ f[p]? = some 0)

/-- R133 and R134: a chain position stays below `L + 255`, so `CUR_W` bits hold it, and a walk allowed `L - 1` jumps or more gives the same verdict:
the step bound never binds. -/
def Obligations.ChainWalkIsBounded : Prop :=
  ∀ (c : Config) (f : List Byte) (first : Byte), c.Legal → f.length = c.frameLen → f[0]? = some first →
    (∀ p, OnChain f p → p < c.frameLen + 255 ∧ p < 2 ^ c.curW) ∧
    (f[c.frameLen - 1]? = some 0 → ∀ n, c.frameLen - 1 ≤ n →
      chainWalk f n first.toNat = chainWalk f c.frameLen first.toNat)

/-- R142: DECODE of a frame with pointer chain `i_0, ..., i_m` gives the record of `L - 2` bytes that has zero where a pointer stood and the
frame's byte elsewhere; `m - 1` positions are zeroed, and when no interior byte of the frame is zero the record has just those zeros. No
other state changes. -/
def Obligations.DecodeRestoresZeros : Prop :=
  ∀ (s : State) (f : List Byte) (positions : List Nat), s.cfg.Legal → f.length = s.cfg.frameLen →
    f[s.cfg.frameLen - 1]? = some 0 → IsPointerChain f positions →
    ∃ out, exec (.decode f) s = .next { s with responses := s.responses ++ [.record out] } ∧
      out.length = s.cfg.frameLen - 2 ∧
      (∀ k < s.cfg.frameLen - 2, out[k]? = if k + 1 ∈ positions then some 0 else f[k + 1]?) ∧
      ((List.range (s.cfg.frameLen - 2)).countP fun k => decide (k + 1 ∈ positions)) = positions.length - 2 ∧
      ((∀ k, 1 ≤ k → k < s.cfg.frameLen - 1 → f[k]? ≠ some 0) → out.count 0 = positions.length - 2)

/-- R140 and R144: DECODE of a frame that is not valid responds `Malformed` with all `L` bytes unchanged, gives no record and changes nothing. -/
def Obligations.DecodeRefusesInvalidFrame : Prop :=
  ∀ (s : State) (f : List Byte), s.cfg.Legal → f.length = s.cfg.frameLen →
    ¬(f[s.cfg.frameLen - 1]? = some 0 ∧ ∃ positions, IsPointerChain f positions) →
    exec (.decode f) s = .next { s with responses := s.responses ++ [.malformed f] }

/-- R143: when the first byte is `L - 1` and the last is zero, the record is the interior of the frame unchanged. -/
def Obligations.SinglePointerFrameIsCopied : Prop :=
  ∀ (s : State) (f : List Byte) (first : Byte), s.cfg.Legal → f.length = s.cfg.frameLen → f[0]? = some first →
    first.toNat = s.cfg.frameLen - 1 → f[s.cfg.frameLen - 1]? = some 0 →
    exec (.decode f) s =
      .next { s with responses := s.responses ++ [.record ((f.drop 1).take (s.cfg.frameLen - 2))] }

/-- R146: the frame `stuff(P)` has no zero byte before its last, VALID accepts it and DECODE gives `P` back. -/
def Obligations.DecodeUndoesStuffing : Prop :=
  ∀ (s : State) (payload : List Byte), s.cfg.Legal → payload.length = s.cfg.payloadLen → stuffable payload = true →
    (∀ k < s.cfg.frameLen - 1, ∃ b, (stuff payload)[k]? = some b ∧ b ≠ 0) ∧
    exec (.valid (stuff payload)) s = .next { s with responses := s.responses ++ [.bool true] } ∧
    exec (.decode (stuff payload)) s = .next { s with responses := s.responses ++ [.record payload] }

/-- R146, conversely: `stuff(unstuff(F)) = F` for every valid `F` with no interior zero byte. -/
def Obligations.StuffingUndoesDecode : Prop :=
  ∀ f : List Byte, validFrame f = true → (∀ k, 1 ≤ k → k < f.length - 1 → f[k]? ≠ some 0) →
    stuff (unstuff f) = f ∧ stuffable (unstuff f) = true

/-- R30, R56 and R130: VALID and DECODE depend on nothing but their operand and `L`: at any other legal configuration with the same `L`, whatever
else the states hold, `C` included, they give the same response; and they and UTIL change nothing but the responses. -/
def Obligations.PureCommandsIgnoreBuffer : Prop :=
  (∀ (i : Instr) (f : List Byte) (s t s' : State), i = .valid f ∨ i = .decode f → s'.cfg.Legal →
    s'.cfg.frameLen = s.cfg.frameLen → exec i s = .next t →
    ∃ r, t = s.withResponses (s.responses ++ [r]) ∧ exec i s' = .next (s'.withResponses (s'.responses ++ [r]))) ∧
  ∀ s t : State, exec .util s = .next t → t = s.withResponses t.responses

/-- R150: POLL is WRITE, then FRAME, then, if that gave a frame, DECODE of it; it leaves the state they leave and responds `NoFrame` or as DECODE
does. It completes for every chunk that `count` has room for. -/
def Obligations.PollIsWriteFrameDecode : Prop :=
  ∀ (s : State) (data : List Byte), s.Ready → s.Room data.length → ∃ t u : State, ∃ p r : Response,
    exec (.write data) s = .next t ∧ exec .frame t = .next u ∧ u.responses = s.responses ++ [p, r] ∧
    (r = .noFrame ∧ exec (.poll data) s = .next (u.withResponses (s.responses ++ [.noFrame])) ∨
      ∃ (f : List Byte) (v : State) (d : Response), r = .frame f ∧ exec (.decode f) u = .next v ∧
        v.responses = s.responses ++ [p, r, d] ∧ exec (.poll data) s = .next (u.withResponses (s.responses ++ [d])))

/-- R151: WRITE(a) then POLL(b) has the same effect and response as POLL(a ++ b); but POLL(a) then POLL(b) is not in general the same, since it
makes two extraction attempts. -/
def Obligations.WriteThenPollIsOnePoll : Prop :=
  (∀ (s : State) (a b : List Byte), s.Ready → s.Room (a ++ b).length → ∃ t u v : State, ∃ p d : Response,
    exec (.write a) s = .next t ∧ exec (.poll b) t = .next u ∧ exec (.poll (a ++ b)) s = .next v ∧
    v.responses = s.responses ++ [d] ∧ u = v.withResponses (s.responses ++ [p, d])) ∧
  ∃ (s t u v : State) (a b : List Byte), s.Inv ∧ exec (.poll a) s = .next t ∧ exec (.poll b) t = .next u ∧
    exec (.poll (a ++ b)) s = .next v ∧ u.count ≠ v.count

/-- R89 and R151: a POLL of any length, written by the assembler as WRITEs and one POLL, is a sequence of well-formed packets with the effect
and the last response of one undivided POLL. -/
def Obligations.LongPollIsUndivided : Prop :=
  ∀ (s : State) (data : List Byte), s.Ready → s.Room data.length →
    (∀ i ∈ pseudoPoll data, i.wellFormed s.cfg.frameLen = true) ∧
    ∃ t u : State, exec (.poll data) s = .next t ∧ execAll (pseudoPoll data) s = .next u ∧
      t = u.withResponses t.responses ∧ u.responses.getLast? = t.responses.getLast?

/-- The frame of POLL (R150, R51): with `n` the bytes written and `m` the bytes it then took off `count`, a slot that is neither among the `n` from
the old write cursor nor among the `m` from the old read cursor keeps its byte; `C`, `L`, the port, `UDF` and `ILL` stay. -/
def Obligations.PollTouchesOnlyItsSlots : Prop :=
  ∀ (s t : State) (data : List Byte), s.Ready → exec (.poll data) s = .next t →
    t.count ≤ s.count + data.length ∧ t.wr = (s.wr + data.length) % s.cfg.capacity ∧
    t.rd = (s.rd + (s.count + data.length - t.count)) % s.cfg.capacity ∧
    (∀ a, (∀ k < data.length, a ≠ (s.wr + k) % s.cfg.capacity) →
      (∀ k < s.count + data.length - t.count, a ≠ (s.rd + k) % s.cfg.capacity) → t.storage.read a = s.storage.read a) ∧
    (∀ k < s.count + data.length - t.count, t.storage.read ((s.rd + k) % s.cfg.capacity) = some 0) ∧
    (t.ovf = true ↔ s.ovf = true ∨ data ≠ [] ∧ s.cfg.capacity < s.count + data.length) ∧
    t.cfg = s.cfg ∧ t.port = s.port ∧ t.udf = s.udf ∧ t.ill = s.ill

/-- R153, end to end: from reset, a POLL of one valid frame with no interior zero and `g` bytes of garbage responds with the frame's record, with no
overflow; the next `NEXT` responds `NoFrame` if `g < L`, and otherwise `NoFrame`, `Malformed` or a second `Record`. -/
def Obligations.OneFrameThenGarbage : Prop :=
  ∀ (c : Config) (f garbage : List Byte), c.Legal → f.length = c.frameLen → validFrame f = true →
    (∀ k, 1 ≤ k → k < c.frameLen - 1 → f[k]? ≠ some 0) → c.frameLen + garbage.length ≤ c.capacity →
    ∃ t u r, exec (.poll (f ++ garbage)) (State.resetWith c) = .next t ∧
      t.responses = [.record (unstuff f)] ∧ t.count = garbage.length ∧ t.unread = garbage ∧ t.faultReg = 0 ∧
      execAll pseudoNext t = .next u ∧ u.responses = [.record (unstuff f), r] ∧
      (garbage.length < c.frameLen → r = .noFrame) ∧
      (r = .noFrame ∨ (∃ raw, r = .malformed raw) ∨ ∃ rec, r = .record rec)

/-- R27: the FAULT bits are sticky over every step, and a command sets OVF only by storing a byte at `count >= C`, UDF only as READ on an empty
buffer, and ILL never: that is the decoder's. -/
def Obligations.FaultBitsAreSticky : Prop :=
  (∀ s t : State, step s = .next t → s.faultReg &&& t.faultReg = s.faultReg) ∧
  ∀ (i : Instr) (s t : State), exec i s = .next t →
    t.ill = s.ill ∧ (t.udf ≠ s.udf → i = .read ∧ s.count = 0) ∧
    (t.ovf ≠ s.ovf → ∃ data, (i = .write data ∨ i = .poll data) ∧ s.cfg.capacity < s.count + data.length)

/-- R27: "No operation's result depends on `FAULT`": with any other value in it, every command but UTIL leaves the same state but for `FAULT`, and
gives the same response; UTIL differs in that field of its response alone. -/
def Obligations.FaultRegisterIsNotConsulted : Prop :=
  (∀ (i : Instr) (s t : State) (f : BitVec 3), i ≠ .util → exec i s = .next t →
    ∃ f', exec i (s.withFaultReg f) = .next (t.withFaultReg f')) ∧
  ∀ (s : State) (f : BitVec 3), s.cfg.Legal →
    exec .util (s.withFaultReg f) =
      .next ((s.withFaultReg f).withResponses (s.responses ++ [.util s.count s.cfg.capacity f]))

/-- R7 and R28: no step writes `C`, `L` or `CNT_W`. -/
def Obligations.ConfigurationNeverChanges : Prop :=
  ∀ s t : State, step s = .next t → t.cfg = s.cfg

/-- R90: every command produces exactly one response, of the kind the table gives it, and a reserved opcode `Fault(IllegalCommand, b)`. -/
def Obligations.OneTypedResponsePerCommand : Prop :=
  (∀ (i : Instr) (s t : State), s.Ready → exec i s = .next t →
    ∃ r, t.responses = s.responses ++ [r] ∧ responseAllowed s t i r) ∧
  ∀ (s : State) (b : Byte) (rest : List Byte), s.cfg.Legal → decode s.cfg.frameLen s.port = some (.illegal b, rest) →
    ∃ t, step s = .next t ∧ t.responses = s.responses ++ [.fault (.illegalCommand b)]

/-- The table of 10_state section 1: which commands write which register. The cursors are independent: `rd` is moved only by READ, FRAME and POLL,
`wr` only by WRITE and POLL; UTIL, VALID and DECODE write none. -/
def Obligations.RegistersAreWrittenBy : Prop :=
  ∀ (i : Instr) (s t : State), exec i s = .next t →
    (t.rd ≠ s.rd → i = .read ∨ i = .frame ∨ ∃ data, i = .poll data) ∧
    (t.wr ≠ s.wr → ∃ data, i = .write data ∨ i = .poll data) ∧
    (t.count ≠ s.count ∨ t.storage ≠ s.storage → i ≠ .util ∧ ∀ f, i ≠ .valid f ∧ i ≠ .decode f) ∧
    t.port = s.port ∧ t.cfg = s.cfg

/-- The buffer is a queue (R26 (c), R53, R119): while no overflow happens, a command takes the oldest unread bytes from the front and puts the bytes
it writes at the back, in order; READ returns the oldest, and a frame is the `L` oldest. -/
def Obligations.BufferIsAQueue : Prop :=
  ∀ (i : Instr) (s t : State), s.Inv → exec i s = .next t → t.ovf = false →
    t.count ≤ s.count + (bytesWritten i).length ∧
    t.unread = (s.unread ++ bytesWritten i).drop (s.count + (bytesWritten i).length - t.count) ∧
    (i = .read → ∀ b rest, s.unread = b :: rest → t.responses = s.responses ++ [.byte b] ∧ t.unread = rest) ∧
    ∀ f, i = .frame → t.responses = s.responses ++ [.frame f] → s.unread = f ++ t.unread

/-- R119, the round trip: from reset, after chunks of total length at most `C`, `count` is that length, and reading that many bytes back yields the
bytes written, in order. -/
def Obligations.BufferRoundTrip : Prop :=
  ∀ (c : Config) (chunks : List (List Byte)), c.Legal → chunks.flatten.length ≤ c.capacity → ∃ t u,
    execAll (chunks.map .write) (State.resetWith c) = .next t ∧ t.count = chunks.flatten.length ∧
    execAll (pseudoDrain chunks.flatten.length) t = .next u ∧
    u.responses = t.responses ++ chunks.flatten.map .byte ∧ u.count = 0 ∧ u.faultReg = 0

/-- R196: with `C < L`, neither FRAME nor POLL gives a frame at any point of any run on which no overflow has happened. -/
def Obligations.SmallBufferGivesNoFrame : Prop :=
  ∀ (c : Config) (s : State), c.Legal → Reachable c s → c.capacity < c.frameLen → s.ovf = false →
    exec .frame s = .next (s.withResponses (s.responses ++ [.noFrame])) ∧
    ∀ (data : List Byte) (t : State), exec (.poll data) s = .next t → t.ovf = false →
      t.responses = s.responses ++ [.noFrame]

/-- R167: the codes of the outcomes and the FAULT bits that go with them. -/
def Obligations.OutcomeCodesAndBits : Prop :=
  [Cause.normal, .insufficientData, .malformedFrame, .overflow, .underflow, .illegalCommand].map Cause.code =
    [0, 1, 2, 3, 4, 5] ∧
  [Cause.normal, .insufficientData, .malformedFrame, .overflow, .underflow, .illegalCommand].map Cause.bit =
    [0, 0, 0, 0b001, 0b010, 0b100] ∧
  Response.noFrame.cause = .insufficientData ∧ (∀ raw, (Response.malformed raw).cause = .malformedFrame) ∧
  (Response.fault .underflow).cause = .underflow ∧ ∀ b, (Response.fault (.illegalCommand b)).cause = .illegalCommand

/-- Where the model stops (R9 with 92 D4, D5 and D7; 93 U11; 20_memory R50; the choices of log 6, log 7 and log 8): a configuration outside
`C >= 1`, `L >= 2`, `2^CNT_W > C` is refused; so is a frame operand of other than `L` bytes; an access to a slot that does not exist faults. -/
def Obligations.ModelStopsByName : Prop :=
  (∀ (i : Instr) (s : State), ¬s.cfg.Legal →
    exec i s = .refused .illegalConfiguration ∧ step s = .refused .illegalConfiguration) ∧
  (∀ (s : State) (f : List Byte), s.cfg.Legal → f.length ≠ s.cfg.frameLen →
    exec (.valid f) s = .refused (.frameLength f.length) ∧ exec (.decode f) s = .refused (.frameLength f.length)) ∧
  ∀ (s : State) (a : Nat) (b : Byte), s.cfg.capacity ≤ a →
    memRead a s = .fault (.storageIndex a) ∧ memWrite a b s = .fault (.storageIndex a)

/-- 93 U4 and 92 D7: in a realisation whose `count` has `w` bits, WRITE and POLL are refused just when their bytes would take `count` to `2^w` or
beyond; no other command is refused for it; and it takes an overflow to get there, since `2^w > C` (R23). That the whole command is refused,
the bytes that still had room with it, is the model's choice (log 9): the spec says to refuse beyond that point, and not how much. -/
def Obligations.CountBeyondItsWidthIsRefused : Prop :=
  (∀ (s : State) (data : List Byte) (w : Nat), s.Ready → s.cfg.countWidth = some w → s.count < 2 ^ w →
    2 ^ w ≤ s.count + data.length →
    exec (.write data) s = .refused (.countWidth w) ∧ exec (.poll data) s = .refused (.countWidth w)) ∧
  ∀ (i : Instr) (s : State) (w : Nat), exec i s = .refused (.countWidth w) →
    s.cfg.countWidth = some w ∧ (∃ data, i = .write data ∨ i = .poll data) ∧ 2 ^ w ≤ s.count + (bytesWritten i).length ∧
    s.cfg.capacity < s.count + (bytesWritten i).length

/-- R23: a realisation with a `count` of `CNT_W` bits "agrees with this spec on every run in which `count < 2^CNT_W`": whatever step or command it
performs, the spec's own machine performs alike. Where it is refused (the whole command, the model's choice: log 9), the spec's own machine completes, with `FAULT.OVF` set. -/
def Obligations.CountWidthIsNotSeen : Prop :=
  (∀ s t : State, step s = .next t → step s.withoutCountWidth = .next t.withoutCountWidth) ∧
  (∀ (i : Instr) (s t : State), exec i s = .next t → exec i s.withoutCountWidth = .next t.withoutCountWidth) ∧
  ∀ (i : Instr) (s : State) (w : Nat), s.Ready → exec i s = .refused (.countWidth w) →
    ∃ t, exec i s.withoutCountWidth = .next t ∧ t.ovf = true
end

