-- ==== Sys2Proof/Laws/State.lean ====
section
/-! SUPPORT. What each named update does to each field of the state: one lemma per field per update, so that no proof unfolds a record
update. -/

namespace Sys2Proof.Machine

variable (s : State)

@[simp] theorem State.setFault_cfg (bit : BitVec 3) : (s.setFault bit).cfg = s.cfg := (rfl)
@[simp] theorem State.setFault_rd (bit : BitVec 3) : (s.setFault bit).rd = s.rd := (rfl)
@[simp] theorem State.setFault_wr (bit : BitVec 3) : (s.setFault bit).wr = s.wr := (rfl)
@[simp] theorem State.setFault_count (bit : BitVec 3) : (s.setFault bit).count = s.count := (rfl)
@[simp] theorem State.setFault_storage (bit : BitVec 3) : (s.setFault bit).storage = s.storage := (rfl)
@[simp] theorem State.setFault_faultReg (bit : BitVec 3) : (s.setFault bit).faultReg = s.faultReg ||| bit := (rfl)
@[simp] theorem State.setFault_port (bit : BitVec 3) : (s.setFault bit).port = s.port := (rfl)
@[simp] theorem State.setFault_responses (bit : BitVec 3) : (s.setFault bit).responses = s.responses := (rfl)

@[simp] theorem State.incRd_cfg : (s.incRd).cfg = s.cfg := (rfl)
@[simp] theorem State.incRd_rd : (s.incRd).rd = incIndex s.cfg.capacity s.rd := (rfl)
@[simp] theorem State.incRd_wr : (s.incRd).wr = s.wr := (rfl)
@[simp] theorem State.incRd_count : (s.incRd).count = s.count := (rfl)
@[simp] theorem State.incRd_storage : (s.incRd).storage = s.storage := (rfl)
@[simp] theorem State.incRd_faultReg : (s.incRd).faultReg = s.faultReg := (rfl)
@[simp] theorem State.incRd_port : (s.incRd).port = s.port := (rfl)
@[simp] theorem State.incRd_responses : (s.incRd).responses = s.responses := (rfl)

@[simp] theorem State.incWr_cfg : (s.incWr).cfg = s.cfg := (rfl)
@[simp] theorem State.incWr_rd : (s.incWr).rd = s.rd := (rfl)
@[simp] theorem State.incWr_wr : (s.incWr).wr = incIndex s.cfg.capacity s.wr := (rfl)
@[simp] theorem State.incWr_count : (s.incWr).count = s.count := (rfl)
@[simp] theorem State.incWr_storage : (s.incWr).storage = s.storage := (rfl)
@[simp] theorem State.incWr_faultReg : (s.incWr).faultReg = s.faultReg := (rfl)
@[simp] theorem State.incWr_port : (s.incWr).port = s.port := (rfl)
@[simp] theorem State.incWr_responses : (s.incWr).responses = s.responses := (rfl)

@[simp] theorem State.withCount_cfg (n : Nat) : (s.withCount n).cfg = s.cfg := (rfl)
@[simp] theorem State.withCount_rd (n : Nat) : (s.withCount n).rd = s.rd := (rfl)
@[simp] theorem State.withCount_wr (n : Nat) : (s.withCount n).wr = s.wr := (rfl)
@[simp] theorem State.withCount_count (n : Nat) : (s.withCount n).count = n := (rfl)
@[simp] theorem State.withCount_storage (n : Nat) : (s.withCount n).storage = s.storage := (rfl)
@[simp] theorem State.withCount_faultReg (n : Nat) : (s.withCount n).faultReg = s.faultReg := (rfl)
@[simp] theorem State.withCount_port (n : Nat) : (s.withCount n).port = s.port := (rfl)
@[simp] theorem State.withCount_responses (n : Nat) : (s.withCount n).responses = s.responses := (rfl)

@[simp] theorem State.withByte_cfg (i : Nat) (b : Byte) : (s.withByte i b).cfg = s.cfg := (rfl)
@[simp] theorem State.withByte_rd (i : Nat) (b : Byte) : (s.withByte i b).rd = s.rd := (rfl)
@[simp] theorem State.withByte_wr (i : Nat) (b : Byte) : (s.withByte i b).wr = s.wr := (rfl)
@[simp] theorem State.withByte_count (i : Nat) (b : Byte) : (s.withByte i b).count = s.count := (rfl)
@[simp] theorem State.withByte_storage (i : Nat) (b : Byte) : (s.withByte i b).storage = s.storage.write i b := (rfl)
@[simp] theorem State.withByte_faultReg (i : Nat) (b : Byte) : (s.withByte i b).faultReg = s.faultReg := (rfl)
@[simp] theorem State.withByte_port (i : Nat) (b : Byte) : (s.withByte i b).port = s.port := (rfl)
@[simp] theorem State.withByte_responses (i : Nat) (b : Byte) : (s.withByte i b).responses = s.responses := (rfl)

@[simp] theorem State.withPort_cfg (bytes : List Byte) : (s.withPort bytes).cfg = s.cfg := (rfl)
@[simp] theorem State.withPort_rd (bytes : List Byte) : (s.withPort bytes).rd = s.rd := (rfl)
@[simp] theorem State.withPort_wr (bytes : List Byte) : (s.withPort bytes).wr = s.wr := (rfl)
@[simp] theorem State.withPort_count (bytes : List Byte) : (s.withPort bytes).count = s.count := (rfl)
@[simp] theorem State.withPort_storage (bytes : List Byte) : (s.withPort bytes).storage = s.storage := (rfl)
@[simp] theorem State.withPort_faultReg (bytes : List Byte) : (s.withPort bytes).faultReg = s.faultReg := (rfl)
@[simp] theorem State.withPort_port (bytes : List Byte) : (s.withPort bytes).port = bytes := (rfl)
@[simp] theorem State.withPort_responses (bytes : List Byte) : (s.withPort bytes).responses = s.responses := (rfl)

@[simp] theorem State.respond_cfg (v : Response) : (s.respond v).cfg = s.cfg := (rfl)
@[simp] theorem State.respond_rd (v : Response) : (s.respond v).rd = s.rd := (rfl)
@[simp] theorem State.respond_wr (v : Response) : (s.respond v).wr = s.wr := (rfl)
@[simp] theorem State.respond_count (v : Response) : (s.respond v).count = s.count := (rfl)
@[simp] theorem State.respond_storage (v : Response) : (s.respond v).storage = s.storage := (rfl)
@[simp] theorem State.respond_faultReg (v : Response) : (s.respond v).faultReg = s.faultReg := (rfl)
@[simp] theorem State.respond_port (v : Response) : (s.respond v).port = s.port := (rfl)
@[simp] theorem State.respond_responses (v : Response) : (s.respond v).responses = s.responses ++ [v] := (rfl)

@[simp] theorem State.deliver_cfg (bytes : List Byte) : (s.deliver bytes).cfg = s.cfg := (rfl)
@[simp] theorem State.deliver_rd (bytes : List Byte) : (s.deliver bytes).rd = s.rd := (rfl)
@[simp] theorem State.deliver_wr (bytes : List Byte) : (s.deliver bytes).wr = s.wr := (rfl)
@[simp] theorem State.deliver_count (bytes : List Byte) : (s.deliver bytes).count = s.count := (rfl)
@[simp] theorem State.deliver_storage (bytes : List Byte) : (s.deliver bytes).storage = s.storage := (rfl)
@[simp] theorem State.deliver_faultReg (bytes : List Byte) : (s.deliver bytes).faultReg = s.faultReg := (rfl)
@[simp] theorem State.deliver_port (bytes : List Byte) : (s.deliver bytes).port = s.port ++ bytes := (rfl)
@[simp] theorem State.deliver_responses (bytes : List Byte) : (s.deliver bytes).responses = s.responses := (rfl)

@[simp] theorem State.consumed_cfg (j : Nat) : (s.consumed j).cfg = s.cfg := (rfl)
@[simp] theorem State.consumed_rd (j : Nat) : (s.consumed j).rd = (s.rd + j) % s.cfg.capacity := (rfl)
@[simp] theorem State.consumed_wr (j : Nat) : (s.consumed j).wr = s.wr := (rfl)
@[simp] theorem State.consumed_count (j : Nat) : (s.consumed j).count = s.count - j := (rfl)
@[simp] theorem State.consumed_storage (j : Nat) : (s.consumed j).storage = zeroSlots s.cfg.capacity j s.rd s.storage := (rfl)
@[simp] theorem State.consumed_faultReg (j : Nat) : (s.consumed j).faultReg = s.faultReg := (rfl)
@[simp] theorem State.consumed_port (j : Nat) : (s.consumed j).port = s.port := (rfl)
@[simp] theorem State.consumed_responses (j : Nat) : (s.consumed j).responses = s.responses := (rfl)

@[simp] theorem State.withFaultReg_cfg (f : BitVec 3) : (s.withFaultReg f).cfg = s.cfg := (rfl)
@[simp] theorem State.withFaultReg_rd (f : BitVec 3) : (s.withFaultReg f).rd = s.rd := (rfl)
@[simp] theorem State.withFaultReg_wr (f : BitVec 3) : (s.withFaultReg f).wr = s.wr := (rfl)
@[simp] theorem State.withFaultReg_count (f : BitVec 3) : (s.withFaultReg f).count = s.count := (rfl)
@[simp] theorem State.withFaultReg_storage (f : BitVec 3) : (s.withFaultReg f).storage = s.storage := (rfl)
@[simp] theorem State.withFaultReg_faultReg (f : BitVec 3) : (s.withFaultReg f).faultReg = f := (rfl)
@[simp] theorem State.withFaultReg_port (f : BitVec 3) : (s.withFaultReg f).port = s.port := (rfl)
@[simp] theorem State.withFaultReg_responses (f : BitVec 3) : (s.withFaultReg f).responses = s.responses := (rfl)

@[simp] theorem State.withResponses_cfg (r : List Response) : (s.withResponses r).cfg = s.cfg := (rfl)
@[simp] theorem State.withResponses_rd (r : List Response) : (s.withResponses r).rd = s.rd := (rfl)
@[simp] theorem State.withResponses_wr (r : List Response) : (s.withResponses r).wr = s.wr := (rfl)
@[simp] theorem State.withResponses_count (r : List Response) : (s.withResponses r).count = s.count := (rfl)
@[simp] theorem State.withResponses_storage (r : List Response) : (s.withResponses r).storage = s.storage := (rfl)
@[simp] theorem State.withResponses_faultReg (r : List Response) : (s.withResponses r).faultReg = s.faultReg := (rfl)
@[simp] theorem State.withResponses_port (r : List Response) : (s.withResponses r).port = s.port := (rfl)
@[simp] theorem State.withResponses_responses (r : List Response) : (s.withResponses r).responses = r := (rfl)

@[simp] theorem State.withoutCountWidth_cfg : s.withoutCountWidth.cfg = { s.cfg with countWidth := none } := (rfl)
@[simp] theorem State.withoutCountWidth_rd : s.withoutCountWidth.rd = s.rd := (rfl)
@[simp] theorem State.withoutCountWidth_wr : s.withoutCountWidth.wr = s.wr := (rfl)
@[simp] theorem State.withoutCountWidth_count : s.withoutCountWidth.count = s.count := (rfl)
@[simp] theorem State.withoutCountWidth_storage : s.withoutCountWidth.storage = s.storage := (rfl)
@[simp] theorem State.withoutCountWidth_faultReg : s.withoutCountWidth.faultReg = s.faultReg := (rfl)
@[simp] theorem State.withoutCountWidth_port : s.withoutCountWidth.port = s.port := (rfl)
@[simp] theorem State.withoutCountWidth_responses : s.withoutCountWidth.responses = s.responses := (rfl)

@[simp] theorem State.noteOverflow_cfg : s.noteOverflow.cfg = s.cfg := by unfold State.noteOverflow; split <;> rfl
@[simp] theorem State.noteOverflow_rd : s.noteOverflow.rd = s.rd := by unfold State.noteOverflow; split <;> rfl
@[simp] theorem State.noteOverflow_wr : s.noteOverflow.wr = s.wr := by unfold State.noteOverflow; split <;> rfl
@[simp] theorem State.noteOverflow_count : s.noteOverflow.count = s.count := by unfold State.noteOverflow; split <;> rfl
@[simp] theorem State.noteOverflow_storage : s.noteOverflow.storage = s.storage := by unfold State.noteOverflow; split <;> rfl
@[simp] theorem State.noteOverflow_port : s.noteOverflow.port = s.port := by unfold State.noteOverflow; split <;> rfl
@[simp] theorem State.noteOverflow_responses : s.noteOverflow.responses = s.responses := by unfold State.noteOverflow; split <;> rfl
@[simp] theorem State.noteOverflow_faultReg :
    s.noteOverflow.faultReg = if s.cfg.capacity ≤ s.count then s.faultReg ||| ovfBit else s.faultReg := by
  unfold State.noteOverflow; split <;> rfl

@[simp] theorem State.resetWith_cfg (c : Config) : (State.resetWith c).cfg = c := (rfl)
@[simp] theorem State.resetWith_rd (c : Config) : (State.resetWith c).rd = 0 := (rfl)
@[simp] theorem State.resetWith_wr (c : Config) : (State.resetWith c).wr = 0 := (rfl)
@[simp] theorem State.resetWith_count (c : Config) : (State.resetWith c).count = 0 := (rfl)
@[simp] theorem State.resetWith_storage (c : Config) : (State.resetWith c).storage = [] := (rfl)
@[simp] theorem State.resetWith_faultReg (c : Config) : (State.resetWith c).faultReg = 0 := (rfl)
@[simp] theorem State.resetWith_port (c : Config) : (State.resetWith c).port = [] := (rfl)
@[simp] theorem State.resetWith_responses (c : Config) : (State.resetWith c).responses = [] := (rfl)

/-- Two states that agree on every field are equal. -/
theorem State.ext_fields {s t : State} (hcfg : s.cfg = t.cfg) (hrd : s.rd = t.rd) (hwr : s.wr = t.wr)
    (hcount : s.count = t.count) (hstorage : s.storage = t.storage) (hfault : s.faultReg = t.faultReg)
    (hport : s.port = t.port) (hresponses : s.responses = t.responses) : s = t := by
  cases s; cases t; simp_all

end Sys2Proof.Machine
end

