-- ==== Sys2Proof/Laws/Storage.lean ====
section
/-! SUPPORT. The laws of storage: a read after a write, every other slot left alone, the canonical form and the range kept, and equality of
canonical memories that read alike. -/

namespace Sys2Proof.Machine

@[simp] theorem Memory.read_nil (i : Nat) : Memory.read [] i = none := rfl

@[simp] theorem Memory.read_write_self (m : Memory) (i : Nat) (v : Byte) : (m.write i v).read i = some v := by
  induction m with
  | nil => simp [Memory.write, Memory.read]
  | cons cell rest ih =>
    obtain ⟨a, b⟩ := cell
    simp only [Memory.write]
    split
    · simp [Memory.read]
    · split
      · simp [Memory.read]
      · simp [Memory.read, *]

theorem Memory.read_write_other (m : Memory) {i j : Nat} (v : Byte) (h : j ≠ i) :
    (m.write i v).read j = m.read j := by
  induction m with
  | nil => simp [Memory.write, Memory.read, h]
  | cons cell rest ih =>
    obtain ⟨a, b⟩ := cell
    simp only [Memory.write]
    split
    · simp [Memory.read, h]
    · split
      · subst i; simp [Memory.read, h]
      · simp [Memory.read, ih]

theorem Memory.read_write (m : Memory) (i j : Nat) (v : Byte) :
    (m.write i v).read j = if j = i then some v else m.read j := by
  split
  · subst j; simp
  · exact Memory.read_write_other m v ‹_›

/-- A slot that holds a value still does after any write. -/
theorem Memory.read_write_ne_none {m : Memory} {j : Nat} (i : Nat) (v : Byte) (h : m.read j ≠ none) :
    (m.write i v).read j ≠ none := by
  rw [Memory.read_write]; split <;> simp_all

theorem Memory.mem_write {m : Memory} {i : Nat} {v : Byte} {cell : Host.Cell} (h : cell ∈ m.write i v) :
    cell = (i, v) ∨ cell ∈ m := by
  induction m with
  | nil => simpa [Memory.write] using h
  | cons first rest ih =>
    obtain ⟨a, b⟩ := first
    simp only [Memory.write] at h
    split at h
    · simpa using h
    · split at h <;> · simp only [List.mem_cons] at h ⊢; tauto

/-- Every write keeps the canonical form. -/
theorem Memory.wf_write {m : Memory} (i : Nat) (v : Byte) (h : m.wf) : (m.write i v).wf := by
  induction m with
  | nil => simp [Memory.write, Memory.wf]
  | cons cell rest ih =>
    obtain ⟨a, b⟩ := cell
    obtain ⟨hlt, hrest⟩ := List.pairwise_cons.mp h
    simp only [Memory.write]
    split
    · refine List.pairwise_cons.mpr ⟨?_, h⟩
      intro cell hcell
      rcases List.mem_cons.mp hcell with rfl | hcell
      · assumption
      · exact Nat.lt_trans ‹i < a› (hlt cell hcell)
    · split
      · subst i; exact List.pairwise_cons.mpr ⟨hlt, hrest⟩
      · refine List.pairwise_cons.mpr ⟨?_, ih hrest⟩
        intro cell hcell
        rcases Memory.mem_write hcell with rfl | hcell
        · show a < i; omega
        · exact hlt cell hcell

/-- A write to a slot that exists lists no other. -/
theorem Memory.within_write {m : Memory} {C i : Nat} (v : Byte) (hi : i < C) (h : m.within C) : (m.write i v).within C := by
  intro cell hcell
  rcases Memory.mem_write hcell with rfl | hcell
  · exact hi
  · exact h cell hcell

theorem Memory.wf_nil : Memory.wf [] := List.Pairwise.nil

theorem Memory.read_eq_none_of_lt {m : Memory} {i : Nat} (h : ∀ cell ∈ m, i < cell.1) : m.read i = none := by
  induction m with
  | nil => rfl
  | cons cell rest ih =>
    obtain ⟨a, b⟩ := cell
    have ha : i < a := h (a, b) (by simp)
    rw [Memory.read, if_neg (by omega)]
    exact ih fun c hc => h c (by simp [hc])

/-- Canonical memories that read alike are equal: equal memories are equal data. -/
theorem Memory.ext_of_wf {m n : Memory} (hm : m.wf) (hn : n.wf) (h : ∀ i, m.read i = n.read i) : m = n := by
  induction m generalizing n with
  | nil =>
    cases n with
    | nil => rfl
    | cons cell rest => obtain ⟨a, b⟩ := cell; simpa [Memory.read] using h a
  | cons cell rest ih =>
    obtain ⟨a, b⟩ := cell
    obtain ⟨hlt, hrest⟩ := List.pairwise_cons.mp hm
    cases n with
    | nil => simpa [Memory.read] using h a
    | cons cell' rest' =>
      obtain ⟨a', b'⟩ := cell'
      obtain ⟨hlt', hrest'⟩ := List.pairwise_cons.mp hn
      have haa : a = a' := by
        rcases Nat.lt_trichotomy a a' with hlow | heq | hhigh
        · have := h a
          rw [Memory.read_eq_none_of_lt (m := (a', b') :: rest') (i := a)] at this
          · simp [Memory.read] at this
          · intro c hc
            rcases List.mem_cons.mp hc with rfl | hc
            · exact hlow
            · exact Nat.lt_trans hlow (hlt' c hc)
        · exact heq
        · have := h a'
          rw [Memory.read_eq_none_of_lt (m := (a, b) :: rest) (i := a')] at this
          · simp [Memory.read] at this
          · intro c hc
            rcases List.mem_cons.mp hc with rfl | hc
            · exact hhigh
            · exact Nat.lt_trans hhigh (hlt c hc)
      subst haa
      have hbb : b = b' := by simpa [Memory.read] using h a
      subst hbb
      congr 1
      refine ih hrest hrest' fun i => ?_
      by_cases hi : i = a
      · subst hi; rw [Memory.read_eq_none_of_lt hlt, Memory.read_eq_none_of_lt hlt']
      · simpa [Memory.read, hi] using h i

theorem incIndex_lt {C i : Nat} (h : i < C) : incIndex C i < C := Nat.mod_lt _ (by omega)

/-! Storage after a run of read accesses (`zeroSlots`). -/

theorem zeroSlots_wf {C : Nat} (n i : Nat) {m : Memory} (h : m.wf) : (zeroSlots C n i m).wf := by
  induction n generalizing i m with
  | zero => exact h
  | succ n ih => exact ih _ (Memory.wf_write i 0 h)

theorem zeroSlots_read_ne_none {C : Nat} (n i : Nat) {m : Memory} {a : Nat} (h : m.read a ≠ none) :
    (zeroSlots C n i m).read a ≠ none := by
  induction n generalizing i m with
  | zero => exact h
  | succ n ih => exact ih _ (Memory.read_write_ne_none i 0 h)

theorem zeroSlots_within {C : Nat} (n i : Nat) {m : Memory} (hi : i < C) (h : m.within C) : (zeroSlots C n i m).within C := by
  induction n generalizing i m with
  | zero => exact h
  | succ n ih => exact ih _ (incIndex_lt hi) (Memory.within_write 0 hi h)

theorem incIndex_add_mod (C i k : Nat) : (incIndex C i + k) % C = (i + (k + 1)) % C := by
  simp only [incIndex, Nat.mod_add_mod]; congr 1; omega

/-- `zeroSlots` leaves a slot outside the run alone. -/
theorem zeroSlots_read_other {C : Nat} (n i : Nat) {m : Memory} {a : Nat} (hi : i < C)
    (h : ∀ k < n, a ≠ (i + k) % C) : (zeroSlots C n i m).read a = m.read a := by
  induction n generalizing i m with
  | zero => rfl
  | succ n ih =>
    have h0 : a ≠ i := by simpa [Nat.mod_eq_of_lt hi] using h 0 (by omega)
    rw [zeroSlots, ih _ (incIndex_lt hi), Memory.read_write_other m 0 h0]
    intro k hk
    rw [incIndex_add_mod]
    exact h (k + 1) (by omega)

theorem zeroSlots_keeps_zero {C : Nat} (n i : Nat) {m : Memory} {a : Nat} (h : m.read a = some 0) :
    (zeroSlots C n i m).read a = some 0 := by
  induction n generalizing i m with
  | zero => exact h
  | succ n ih =>
    refine ih _ ?_
    rw [Memory.read_write]; split
    · rfl
    · exact h

/-- `zeroSlots` zeroes every slot of the run. -/
theorem zeroSlots_read_run {C : Nat} (n i : Nat) {m : Memory} {k : Nat} (hi : i < C) (hk : k < n) :
    (zeroSlots C n i m).read ((i + k) % C) = some 0 := by
  induction n generalizing i m k with
  | zero => omega
  | succ n ih =>
    cases k with
    | zero =>
      rw [zeroSlots, Nat.add_zero, Nat.mod_eq_of_lt hi]
      exact zeroSlots_keeps_zero _ _ (Memory.read_write_self m i 0)
    | succ k =>
      rw [zeroSlots, ← incIndex_add_mod]
      exact ih _ (incIndex_lt hi) (by omega)

/-- One more read access at the far end of the run. -/
theorem zeroSlots_succ (C n i : Nat) (m : Memory) (hi : i < C) :
    zeroSlots C (n + 1) i m = (zeroSlots C n i m).write ((i + n) % C) 0 := by
  induction n generalizing i m with
  | zero => simp [zeroSlots, Nat.mod_eq_of_lt hi]
  | succ n ih =>
    rw [zeroSlots, ih _ _ (incIndex_lt hi), incIndex_add_mod, zeroSlots]

end Sys2Proof.Machine
end

