-- ==== Sys2Proof/Laws/Ops.lean ====
section
/-! SUPPORT. The laws of the named operations of Machine/Flags.lean and Machine/Ops.lean: for each, when it answers a next state and which. -/

namespace Sys2Proof.Machine

variable {s t : State}

/-! Sequencing. -/

@[simp] theorem andThen_next {α β : Type} (a : α) (k : α → Result β) : andThen (.next a) k = k a := rfl
@[simp] theorem andThen_fault {α β : Type} (f : Fault) (k : α → Result β) : andThen (.fault f) k = .fault f := rfl
@[simp] theorem andThen_refused {α β : Type} (r : Refusal) (k : α → Result β) : andThen (.refused r) k = .refused r := rfl

theorem andThen_assoc {α β γ : Type} (o : Result α) (k : α → Result β) (l : β → Result γ) :
    andThen (andThen o k) l = andThen o fun a => andThen (k a) l := by cases o <;> rfl

/-- A sequence answers a next state just when both parts do. -/
theorem andThen_eq_next {α β : Type} {o : Result α} {k : α → Result β} {b : β} :
    andThen o k = .next b ↔ ∃ a, o = .next a ∧ k a = .next b := by
  cases o <;> simp

theorem configured_of_legal {α : Type} (h : s.cfg.Legal) (body : Result α) : configured s body = body := if_pos h

theorem configured_eq_next {α : Type} {body : Result α} {a : α} :
    configured s body = .next a ↔ s.cfg.Legal ∧ body = .next a := by
  unfold configured
  split
  · exact ⟨fun e => ⟨‹_›, e⟩, And.right⟩
  · exact ⟨fun e => (by cases e), fun e => absurd e.1 ‹_›⟩

theorem counted_of_held {α : Type} {n : Nat} (h : s.cfg.holdsCount n = true) (body : Result α) : counted n s body = body := by
  unfold Config.holdsCount at h; unfold counted; split <;> simp_all

theorem counted_eq_next {α : Type} {n : Nat} {body : Result α} {a : α} :
    counted n s body = .next a ↔ s.cfg.holdsCount n = true ∧ body = .next a := by
  unfold counted Config.holdsCount
  cases s.cfg.countWidth with
  | none => simp
  | some w => by_cases h : n < 2 ^ w <;> simp [h]

/-- Where `count` is too narrow for `n`, the refusal names its width. -/
theorem counted_of_not_held {α : Type} {n w : Nat} (hw : s.cfg.countWidth = some w) (h : 2 ^ w ≤ n) (body : Result α) :
    counted n s body = .refused (.countWidth w) := by
  unfold counted; rw [hw]; exact if_neg (by omega)

/-- A register of `count` that holds a number holds every smaller one. -/
theorem holdsCount_mono {c : Config} {m n : Nat} (hmn : m ≤ n) (h : c.holdsCount n = true) : c.holdsCount m = true := by
  unfold Config.holdsCount at *
  split at h
  · rfl
  · simpa using Nat.lt_of_le_of_lt hmn (by simpa using h)

/-- Room for two chunks is room for the first, and then for the second. -/
theorem room_left {m n : Nat} (h : s.Room (m + n)) : s.Room m :=
  h.imp (by omega) (holdsCount_mono (by omega))

theorem frameOperand_eq_next {α : Type} {frame : List Byte} {body : Result α} {a : α} :
    frameOperand frame s body = .next a ↔ frame.length = s.cfg.frameLen ∧ body = .next a := by
  unfold frameOperand; split <;> simp_all

/-! Storage accesses. -/

theorem memRead_eq_next {i : Nat} {b : Byte} : memRead i s = .next b ↔ i < s.cfg.capacity ∧ b = s.byteAt i := by
  unfold memRead; split <;> simp_all [eq_comm]

theorem memWrite_eq_next {i : Nat} {b : Byte} : memWrite i b s = .next t ↔ i < s.cfg.capacity ∧ t = s.withByte i b := by
  unfold memWrite; split <;> simp_all [eq_comm]

/-- A slot that holds a value reads as that value. -/
theorem byteAt_of_read {i : Nat} {b : Byte} (h : s.storage.read i = some b) : s.byteAt i = b := by simp [State.byteAt, h]

/-- Raising a fault sets its bit, responds, and changes nothing else (60_exceptions R170). -/
theorem raise_eq (kind : FaultKind) :
    raise kind s = .next { s with faultReg := s.faultReg ||| kind.cause.bit, responses := s.responses ++ [.fault kind] } := rfl

/-- What the fetch takes from the port is what the decoder reads there, and nothing else changes. -/
theorem fetch_eq_some {item : PortItem} :
    fetch s = some (item, t) ↔ ∃ rest, decode s.cfg.frameLen s.port = some (item, rest) ∧ t = s.withPort rest := by
  simp only [fetch, Option.map_eq_some_iff, Prod.mk.injEq, Prod.exists]
  constructor
  · rintro ⟨_, rest, h, rfl, rfl⟩; exact ⟨rest, h, rfl⟩
  · rintro ⟨rest, h, rfl⟩; exact ⟨item, rest, h, rfl, rfl⟩

/-- What one step can do: nothing, on an empty port or an incomplete packet; perform the command in front; reject a reserved opcode. -/
theorem step_eq_next : step s = .next t ↔ s.cfg.Legal ∧
    (decode s.cfg.frameLen s.port = none ∧ t = s ∨
      (∃ i rest, decode s.cfg.frameLen s.port = some (.command i, rest) ∧ exec i (s.withPort rest) = .next t) ∨
      ∃ b rest, decode s.cfg.frameLen s.port = some (.illegal b, rest) ∧ rejectOpcode b (s.withPort rest) = .next t) := by
  rw [step, configured_eq_next]
  refine and_congr_right fun _ => ?_
  rcases h : decode s.cfg.frameLen s.port with _ | ⟨i | b, rest⟩
  · simp [fetch, h, eq_comm]
  · simp [fetch, h]
  · simp [fetch, h]

/-! The FAULT bits. -/

theorem noteOverflow_ovf : s.noteOverflow.ovf = (s.ovf || decide (s.cfg.capacity ≤ s.count)) := by
  unfold State.noteOverflow; split <;> simp_all [State.ovf, State.setFault, ovfBit]

theorem noteOverflow_udf : s.noteOverflow.udf = s.udf := by
  unfold State.noteOverflow; split <;> simp [State.udf, State.setFault, ovfBit]

theorem noteOverflow_ill : s.noteOverflow.ill = s.ill := by
  unfold State.noteOverflow; split <;> simp [State.ill, State.setFault, ovfBit]

theorem incIndex_iterate {C i : Nat} (h : i < C) (k : Nat) : (incIndex C)^[k] i = (i + k) % C := by
  induction k generalizing i with
  | zero => simp [Nat.mod_eq_of_lt h]
  | succ k ih => rw [Function.iterate_succ_apply, ih (incIndex_lt h), incIndex_add_mod]

end Sys2Proof.Machine
end

