-- ==== Sys2Proof/Laws/Buffer.lean ====
section
/-! SUPPORT. The laws of the operand forms and of the shared operations of the buffer: what storing a chunk (`State.stored`), a run of reads
(`State.consumed`, `State.ahead`) and one extraction can do. -/

namespace Sys2Proof.Machine

variable {s t : State}

/-! Storing. -/

@[simp] theorem storedByte_cfg (b : Byte) : (s.storedByte b).cfg = s.cfg := by simp [State.storedByte]
@[simp] theorem storedByte_rd (b : Byte) : (s.storedByte b).rd = s.rd := by simp [State.storedByte]
@[simp] theorem storedByte_wr (b : Byte) : (s.storedByte b).wr = incIndex s.cfg.capacity s.wr := by simp [State.storedByte]
@[simp] theorem storedByte_count (b : Byte) : (s.storedByte b).count = s.count + 1 := by simp [State.storedByte]
@[simp] theorem storedByte_storage (b : Byte) : (s.storedByte b).storage = s.storage.write s.wr b := by simp [State.storedByte]
@[simp] theorem storedByte_port (b : Byte) : (s.storedByte b).port = s.port := by simp [State.storedByte]
@[simp] theorem storedByte_responses (b : Byte) : (s.storedByte b).responses = s.responses := by simp [State.storedByte]
@[simp] theorem storedByte_faultReg (b : Byte) :
    (s.storedByte b).faultReg = if s.cfg.capacity ≤ s.count then s.faultReg ||| ovfBit else s.faultReg := by
  simp [State.storedByte]

@[simp] theorem stored_nil : s.stored [] = s := rfl
@[simp] theorem stored_cons (b : Byte) (data : List Byte) : s.stored (b :: data) = (s.storedByte b).stored data := rfl
theorem stored_append (a b : List Byte) : s.stored (a ++ b) = (s.stored a).stored b := List.foldl_append

@[simp] theorem stored_cfg (data : List Byte) : (s.stored data).cfg = s.cfg := by
  induction data generalizing s <;> simp [*]
@[simp] theorem stored_rd (data : List Byte) : (s.stored data).rd = s.rd := by
  induction data generalizing s <;> simp [*]
@[simp] theorem stored_port (data : List Byte) : (s.stored data).port = s.port := by
  induction data generalizing s <;> simp [*]
@[simp] theorem stored_responses (data : List Byte) : (s.stored data).responses = s.responses := by
  induction data generalizing s <;> simp [*]
@[simp] theorem stored_count (data : List Byte) : (s.stored data).count = s.count + data.length := by
  induction data generalizing s with
  | nil => rfl
  | cons b data ih => simp [ih]; omega

theorem stored_wr (h : s.wr < s.cfg.capacity) (data : List Byte) :
    (s.stored data).wr = (s.wr + data.length) % s.cfg.capacity := by
  induction data generalizing s with
  | nil => simp [Nat.mod_eq_of_lt h]
  | cons b data ih => rw [stored_cons, ih (by simpa using incIndex_lt h)]; simp [incIndex_add_mod]

theorem stored_wr_lt (h : s.wr < s.cfg.capacity) (data : List Byte) : (s.stored data).wr < s.cfg.capacity := by
  rw [stored_wr h]; exact Nat.mod_lt _ (by omega)

/-- Storing sets OVF just when a byte is stored at `count >= C` (41_buffer_ops R111), and no other bit. -/
theorem stored_faultReg (data : List Byte) : (s.stored data).faultReg =
    if data ≠ [] ∧ s.cfg.capacity < s.count + data.length then s.faultReg ||| ovfBit else s.faultReg := by
  induction data generalizing s with
  | nil => simp
  | cons b data ih =>
    rw [stored_cons, ih]
    simp only [storedByte_cfg, storedByte_count, storedByte_faultReg, List.length_cons, ne_eq, reduceCtorEq,
      not_false_eq_true, true_and]
    by_cases hd : data = []
    · subst hd; simp
    · have := List.length_pos_iff.mpr hd
      by_cases h1 : s.cfg.capacity ≤ s.count
      · rw [if_pos ⟨hd, by omega⟩, if_pos h1, if_pos (by omega), BitVec.or_assoc, BitVec.or_self]
      · by_cases h2 : s.cfg.capacity < s.count + (data.length + 1)
        · rw [if_pos ⟨hd, by omega⟩, if_neg h1, if_pos h2]
        · rw [if_neg (by omega), if_neg h1, if_neg h2]

/-- A slot outside those the chunk is stored to keeps what it held. -/
theorem stored_read_other (h : s.wr < s.cfg.capacity) (data : List Byte) {a : Nat}
    (ha : ∀ k < data.length, a ≠ (s.wr + k) % s.cfg.capacity) : (s.stored data).storage.read a = s.storage.read a := by
  induction data generalizing s with
  | nil => rfl
  | cons b data ih =>
    have h0 : a ≠ s.wr := by simpa [Nat.mod_eq_of_lt h] using ha 0 (by simp)
    rw [stored_cons, ih (by simpa using incIndex_lt h), storedByte_storage, Memory.read_write_other _ _ h0]
    intro k hk
    simp only [storedByte_wr, storedByte_cfg, incIndex_add_mod]
    exact ha (k + 1) (by simp only [List.length_cons]; omega)

theorem mod_add_ne {C i j k : Nat} (hjk : j < k) (hk : k < j + C) : (i + j) % C ≠ (i + k) % C := by
  intro h
  have h1 : (k - j) % C = 0 := by
    have := (Nat.ModEq.symm h : (i + k) ≡ (i + j) [MOD C])
    have h2 : (k - j) ≡ 0 [MOD C] := by
      have h3 : i + k = (i + j) + (k - j) := by omega
      rw [h3] at this
      exact Nat.ModEq.add_left_cancel' (i + j) (by simpa using this)
    exact h2
  rw [Nat.mod_eq_of_lt (by omega)] at h1
  omega

/-- A stored byte is what its slot holds, unless a later byte of the chunk took the slot. -/
theorem stored_read_at (h : s.wr < s.cfg.capacity) (data : List Byte) {k : Nat} (hk : k < data.length)
    (hlast : data.length ≤ k + s.cfg.capacity) : (s.stored data).storage.read ((s.wr + k) % s.cfg.capacity) = data[k]? := by
  induction data generalizing s k with
  | nil => simp at hk
  | cons b data ih =>
    have h' : (s.storedByte b).wr < (s.storedByte b).cfg.capacity := by simpa using incIndex_lt h
    simp only [List.length_cons] at hk hlast
    cases k with
    | zero =>
      rw [stored_cons, stored_read_other h']
      · simp [Nat.mod_eq_of_lt h]
      · intro j hj
        simp only [storedByte_wr, storedByte_cfg, incIndex_add_mod]
        exact mod_add_ne (by omega) (by omega)
    | succ k =>
      have := ih h' (k := k) (by omega) (by simpa using by omega)
      simpa [incIndex_add_mod] using this

theorem stored_read_ne_none (data : List Byte) {a : Nat} (h : s.storage.read a ≠ none) :
    (s.stored data).storage.read a ≠ none := by
  induction data generalizing s with
  | nil => exact h
  | cons b data ih => exact ih (by simpa using Memory.read_write_ne_none s.wr b h)

theorem stored_wf (data : List Byte) (h : s.storage.wf) : (s.stored data).storage.wf := by
  induction data generalizing s with
  | nil => exact h
  | cons b data ih => exact ih (by rw [storedByte_storage]; exact Memory.wf_write s.wr b h)

theorem stored_within (data : List Byte) (hwr : s.wr < s.cfg.capacity) (h : s.storage.within s.cfg.capacity) :
    (s.stored data).storage.within s.cfg.capacity := by
  induction data generalizing s with
  | nil => exact h
  | cons b data ih =>
    have := ih (s := s.storedByte b) (by simpa using incIndex_lt hwr)
      (by rw [storedByte_storage, storedByte_cfg]; exact Memory.within_write b hwr h)
    rwa [storedByte_cfg] at this

theorem room_stored {data : List Byte} {n : Nat} (h : s.Room (data.length + n)) : (s.stored data).Room n := by
  rcases n with _ | n
  · exact .inl rfl
  · exact .inr (by simpa [Nat.add_assoc] using h.resolve_left (by omega))

theorem storeByte_eq_next {b : Byte} :
    storeByte b s = .next t ↔ s.cfg.holdsCount (s.count + 1) = true ∧ s.wr < s.cfg.capacity ∧ t = s.storedByte b := by
  unfold storeByte State.storedByte
  rw [counted_eq_next]
  refine and_congr_right fun _ => ?_
  simp only [andThen_eq_next, memWrite_eq_next, State.noteOverflow_cfg]
  constructor
  · rintro ⟨_, ⟨h, rfl⟩, ht⟩
    cases ht; exact ⟨h, by simp⟩
  · rintro ⟨h, rfl⟩
    exact ⟨_, ⟨h, rfl⟩, by simp⟩

/-- Whatever storing a chunk leaves, when it completes, is `State.stored`, and `count` had room for it. -/
theorem storeChunk_eq_next {data : List Byte} (h : storeChunk data s = .next t) : t = s.stored data ∧ s.Room data.length := by
  induction data generalizing s with
  | nil => cases h; exact ⟨rfl, .inl rfl⟩
  | cons b data ih =>
    obtain ⟨u, hu, ht⟩ := andThen_eq_next.mp h
    obtain ⟨hb, _, rfl⟩ := storeByte_eq_next.mp hu
    obtain ⟨rfl, hroom⟩ := ih ht
    refine ⟨rfl, .inr ?_⟩
    rcases hroom with h0 | hroom
    · simpa [h0] using hb
    · simpa [Nat.add_assoc, Nat.add_comm 1] using hroom

/-- Storing a chunk completes from a write cursor in range, when `count` has room for it. -/
theorem storeChunk_of_lt (data : List Byte) (h : s.wr < s.cfg.capacity) (hroom : s.Room data.length) :
    storeChunk data s = .next (s.stored data) := by
  induction data generalizing s with
  | nil => rfl
  | cons b data ih =>
    have hheld : s.cfg.holdsCount (s.count + 1) = true := holdsCount_mono (by simp) (hroom.resolve_left (by simp))
    rw [storeChunk, storeByte_eq_next.mpr ⟨hheld, h, rfl⟩, andThen_next, ih (by simpa using incIndex_lt h), stored_cons]
    exact room_stored (data := [b]) (by simpa [Nat.add_comm] using hroom)

/-- A chunk with which `count` would outgrow its register is refused by the width of the register. -/
theorem storeChunk_of_full {data : List Byte} {w : Nat} (h : s.wr < s.cfg.capacity) (hw : s.cfg.countWidth = some w)
    (hcount : s.count < 2 ^ w) (hfull : 2 ^ w ≤ s.count + data.length) : storeChunk data s = .refused (.countWidth w) := by
  induction data generalizing s with
  | nil => simp at hfull; omega
  | cons b data ih =>
    rw [storeChunk]
    by_cases hb : 2 ^ w ≤ s.count + 1
    · rw [storeByte, counted_of_not_held hw hb, andThen_refused]
    · have hheld : s.cfg.holdsCount (s.count + 1) = true := by simp only [Config.holdsCount, hw]; exact decide_eq_true (by omega)
      rw [storeByte_eq_next.mpr ⟨hheld, h, rfl⟩, andThen_next]
      exact ih (by simpa using incIndex_lt h) (by simpa using hw) (by simp; omega) (by simp at hfull ⊢; omega)

/-! Reading. -/

theorem consumed_zero (h : s.rd < s.cfg.capacity) : s.consumed 0 = s := by
  simp [State.consumed, zeroSlots, Nat.mod_eq_of_lt h]

theorem zeroSlots_add {C i : Nat} (j k : Nat) (m : Memory) (h : i < C) :
    zeroSlots C k ((i + j) % C) (zeroSlots C j i m) = zeroSlots C (j + k) i m := by
  induction j generalizing i m with
  | zero => simp [zeroSlots, Nat.mod_eq_of_lt h]
  | succ j ih =>
    rw [Nat.succ_add, zeroSlots, zeroSlots, ← ih _ (incIndex_lt h), incIndex_add_mod]

theorem consumed_consumed (j k : Nat) (h : s.rd < s.cfg.capacity) : (s.consumed j).consumed k = s.consumed (j + k) := by
  apply State.ext_fields <;> simp [zeroSlots_add, h, Nat.add_assoc, Nat.sub_sub]

theorem aheadByte_zero (h : s.rd < s.cfg.capacity) : s.aheadByte 0 = s.byteAt s.rd := by
  simp [State.aheadByte, Nat.mod_eq_of_lt h, Nat.lt_of_le_of_lt (Nat.zero_le _) h]

/-- What lies ahead of the read cursor after `j` bytes have been consumed is what lay behind those `j` before. -/
theorem aheadByte_consumed (j k : Nat) (h : s.rd < s.cfg.capacity) : (s.consumed j).aheadByte k = s.aheadByte (j + k) := by
  simp only [State.aheadByte, State.consumed_cfg, State.consumed_rd, Nat.mod_add_mod, Nat.add_assoc]
  by_cases hk : k < s.cfg.capacity
  · rw [if_pos hk]
    by_cases hjk : j + k < s.cfg.capacity
    · rw [if_pos hjk]
      simp only [State.byteAt, State.consumed_storage]
      rw [zeroSlots_read_other j s.rd h]
      intro l hl
      exact (mod_add_ne (by omega) (by omega)).symm
    · rw [if_neg hjk]
      apply byteAt_of_read
      have := zeroSlots_read_run (m := s.storage) j s.rd h (k := j + k - s.cfg.capacity) (by omega)
      rw [State.consumed_storage, ← this]
      congr 1
      rw [← Nat.add_mod_right (s.rd + (j + k - s.cfg.capacity))]
      congr 1; omega
  · rw [if_neg hk, if_neg (by omega)]

theorem ahead_length (n : Nat) : (s.ahead n).length = n := by simp [State.ahead]

theorem ahead_succ (n : Nat) : s.ahead (n + 1) = s.ahead n ++ [s.aheadByte n] := by
  simp [State.ahead, List.range_succ]

theorem ahead_getElem? (n k : Nat) : (s.ahead n)[k]? = if k < n then some (s.aheadByte k) else none := by
  simp only [State.ahead, List.getElem?_map]
  split
  · rw [List.getElem?_range (by assumption)]; rfl
  · rw [List.getElem?_eq_none (by simpa using by omega)]; rfl

theorem ahead_succ' (n : Nat) (h : s.rd < s.cfg.capacity) :
    s.ahead (n + 1) = s.byteAt s.rd :: (s.consumed 1).ahead n := by
  rw [State.ahead, List.range_succ_eq_map, List.map_cons, List.map_map, aheadByte_zero h, State.ahead]
  congr 1
  refine List.map_congr_left fun k _ => ?_
  rw [aheadByte_consumed 1 k h, Function.comp_apply, Nat.succ_eq_add_one, Nat.add_comm]

/-- `read1` (41_buffer_ops R113) hands on the byte at the read cursor and leaves `State.consumed 1`; it needs the cursor in range. -/
theorem read1_eq_next {b : Byte} :
    read1 s = .next (b, t) ↔ s.rd < s.cfg.capacity ∧ b = s.byteAt s.rd ∧ t = s.consumed 1 := by
  unfold read1
  simp only [andThen_eq_next, memRead_eq_next, memWrite_eq_next]
  constructor
  · rintro ⟨_, ⟨h, rfl⟩, _, ⟨_, rfl⟩, ht⟩
    cases ht
    exact ⟨h, rfl, rfl⟩
  · rintro ⟨h, rfl, rfl⟩
    exact ⟨_, ⟨h, rfl⟩, _, ⟨h, rfl⟩, rfl⟩

/-- What the loop of FRAME does (R115): it consumes `m` bytes, up to the first zero or the whole budget. -/
theorem readToZero_spec (budget : Nat) (got : List Byte) (h : s.rd < s.cfg.capacity) : ∃ m ≤ budget,
    readToZero budget got s = .next (got ++ s.ahead m, s.consumed m) ∧ (∀ k, k + 1 < m → s.aheadByte k ≠ 0) ∧
      (m = 0 → budget = 0) ∧ (m < budget → 0 < m ∧ s.aheadByte (m - 1) = 0) := by
  induction budget generalizing got s with
  | zero => exact ⟨0, Nat.le_refl _, by simp [readToZero, State.ahead, consumed_zero h], by simp, by simp, by simp⟩
  | succ budget ih =>
    rw [readToZero, read1_eq_next.mpr ⟨h, rfl, rfl⟩, andThen_next]
    by_cases hb : s.byteAt s.rd = 0
    · refine ⟨1, by omega, ?_, by omega, by omega, fun _ => ⟨by omega, by rw [Nat.sub_self, aheadByte_zero h, hb]⟩⟩
      rw [if_pos hb]
      simp [State.ahead, aheadByte_zero h]
    · rw [if_neg hb]
      have h1 : (s.consumed 1).rd < (s.consumed 1).cfg.capacity := by simpa using Nat.mod_lt _ (by omega)
      obtain ⟨m, hm, hread, hnz, hzero, hend⟩ := ih (got ++ [s.byteAt s.rd]) h1
      refine ⟨m + 1, by omega, ?_, ?_, by omega, ?_⟩
      · rw [hread, consumed_consumed 1 m h, ahead_succ' m h]
        simp [Nat.add_comm]
      · intro k hk
        cases k with
        | zero => rw [aheadByte_zero h]; exact hb
        | succ k =>
          have := hnz k (by omega)
          rwa [aheadByte_consumed 1 k h, Nat.add_comm] at this
      · intro hlt
        obtain ⟨hpos, hz⟩ := hend (by omega)
        refine ⟨by omega, ?_⟩
        rw [aheadByte_consumed 1 _ h] at hz
        rw [← hz]; congr 1; omega

/-- What one extraction can do (R115): nothing for want of data; or consume up to the first zero or `L` bytes, and hand on the `L` bytes as a
frame just when the first zero among them is the `L`-th. -/
theorem extractFrame_spec (h : s.rd < s.cfg.capacity) (hL : 2 ≤ s.cfg.frameLen) :
    (s.count < s.cfg.frameLen ∧ extractFrame s = .next (none, s)) ∨
      s.cfg.frameLen ≤ s.count ∧ ∃ m, 0 < m ∧ m ≤ s.cfg.frameLen ∧ (∀ k, k + 1 < m → s.aheadByte k ≠ 0) ∧
        (m < s.cfg.frameLen ∧ s.aheadByte (m - 1) = 0 ∧ extractFrame s = .next (none, s.consumed m) ∨
          m = s.cfg.frameLen ∧ s.aheadByte (m - 1) ≠ 0 ∧ extractFrame s = .next (none, s.consumed m) ∨
          m = s.cfg.frameLen ∧ s.aheadByte (m - 1) = 0 ∧ extractFrame s = .next (some (s.ahead m), s.consumed m)) := by
  unfold extractFrame
  by_cases hc : s.count < s.cfg.frameLen
  · exact .inl ⟨hc, if_pos hc⟩
  · refine .inr ⟨by omega, ?_⟩
    obtain ⟨m, hm, hread, hnz, hzero, hend⟩ := readToZero_spec s.cfg.frameLen [] h
    have hpos : 0 < m := by omega
    refine ⟨m, hpos, hm, hnz, ?_⟩
    rw [if_neg hc, hread, andThen_next]
    obtain ⟨n, rfl⟩ : ∃ n, m = n + 1 := ⟨m - 1, by omega⟩
    simp only [List.nil_append, ahead_length, Nat.add_sub_cancel]
    rcases Nat.lt_or_eq_of_le hm with hlt | heq
    · exact .inl ⟨hlt, (hend hlt).2, if_neg (by omega)⟩
    · right
      by_cases hz : s.aheadByte n = 0
      · exact .inr ⟨heq, hz, if_pos ⟨by rw [ahead_succ, hz]; simp, heq⟩⟩
      · refine .inl ⟨heq, hz, if_neg fun hlast => hz ?_⟩
        simpa [ahead_succ] using hlast.1

end Sys2Proof.Machine
end

