-- ==== Sys2Proof/Laws/Chain.lean ====
section
/-! SUPPORT. The laws of the two walks along the pointer chain, one equation per exit of the loop (42_frame_validator R130, 43_frame_decoder
R141), and of `zeroAt`. -/

namespace Sys2Proof.Machine

variable {f : List Byte} {n cur : Nat} {b : Byte} {positions : List Nat}

theorem chainWalk_at_zero : chainWalk f n 0 = false := by cases n <;> simp [chainWalk]

theorem chainWalk_outside (h : f.length ≤ cur) : chainWalk f n cur = false := by
  cases n <;> simp [chainWalk, List.getElem?_eq_none h]

theorem chainWalk_end (hcur : cur ≠ 0) (h : f[cur]? = some 0) :
    chainWalk f (n + 1) cur = decide (cur = f.length - 1) := by simp [chainWalk, hcur, h]

theorem chainWalk_jump (hcur : cur ≠ 0) (h : f[cur]? = some b) (hb : b ≠ 0) :
    chainWalk f (n + 1) cur = chainWalk f n (cur + b.toNat) := by
  rw [chainWalk, if_neg hcur]; simp only [h]; rw [if_neg hb]

theorem visitedFrom_end (h : f[cur]? = some 0) : visitedFrom f n cur = [] := by cases n <;> simp [visitedFrom, h]

theorem visitedFrom_jump (h : f[cur]? = some b) (hb : b ≠ 0) :
    visitedFrom f (n + 1) cur = cur :: visitedFrom f n (cur + b.toNat) := by
  rw [visitedFrom]; simp only [h]; rw [if_neg hb]

/-- A non-zero byte moves the chain strictly forward (R133). -/
theorem toNat_pos (hb : b ≠ 0) : 0 < b.toNat :=
  Nat.pos_of_ne_zero fun h => hb (BitVec.eq_of_toNat_eq (by simpa using h))

theorem zeroAt_length (out : List Byte) (positions : List Nat) : (zeroAt out positions).length = out.length := by
  unfold zeroAt
  induction positions generalizing out with
  | nil => rfl
  | cons i rest ih => rw [List.foldl_cons, ih, List.length_set]

/-- `zeroAt` puts zero at the output position of each index and leaves every other byte (R141). -/
theorem zeroAt_getElem? (out : List Byte) (positions : List Nat) (hpos : ∀ i ∈ positions, 1 ≤ i) {k : Nat}
    (hk : k < out.length) : (zeroAt out positions)[k]? = if k + 1 ∈ positions then some 0 else out[k]? := by
  unfold zeroAt
  induction positions generalizing out with
  | nil => simp
  | cons i rest ih =>
    have hi := hpos i (by simp)
    rw [List.foldl_cons, ih (out.set (i - 1) 0) (fun j hj => hpos j (by simp [hj])) (by simpa using hk)]
    by_cases hki : k + 1 = i
    · subst hki; simp [hk]
    · by_cases hrest : k + 1 ∈ rest
      · simp [hrest]
      · rw [if_neg hrest, if_neg (by simp [hki, hrest]), List.getElem?_set_ne (by omega)]

theorem frameInterior_length : (frameInterior f).length = f.length - 2 := by simp only [frameInterior, List.length_take, List.length_drop]; omega

theorem frameInterior_getElem? {k : Nat} (hk : k < f.length - 2) : (frameInterior f)[k]? = f[k + 1]? := by
  rw [frameInterior, List.getElem?_take_of_lt hk, List.getElem?_drop, Nat.add_comm]

theorem unstuff_length : (unstuff f).length = f.length - 2 := by rw [unstuff, zeroAt_length, frameInterior_length]

/-- `positions` leads from the chain position `cur` to the last index of `f`, each step the jump of R132. -/
def ChainPath (f : List Byte) (cur : Nat) (positions : List Nat) : Prop :=
  positions.head? = some cur ∧ positions.getLast? = some (f.length - 1) ∧
    positions.IsChain fun i j => ∃ b, f[i]? = some b ∧ b ≠ 0 ∧ j = i + b.toNat

theorem chainPath_singleton : ChainPath f (f.length - 1) [f.length - 1] := ⟨rfl, rfl, List.isChain_singleton _⟩

/-- A path from a non-zero byte is that position, then a path from where the byte points. -/
theorem chainPath_jump (hb : f[cur]? = some b) (hnz : b ≠ 0) (hlast : cur ≠ f.length - 1) :
    ChainPath f cur positions ↔ ∃ rest, positions = cur :: rest ∧ ChainPath f (cur + b.toNat) rest := by
  constructor
  · rintro ⟨hhead, hend, hchain⟩
    match positions, hhead with
    | [x], hhead => simp_all
    | x :: y :: rest, hhead =>
      obtain rfl : x = cur := by simpa using hhead
      obtain ⟨⟨b', hb', _, rfl⟩, hchain⟩ := List.isChain_cons_cons.mp hchain
      obtain rfl : b = b' := by simpa [hb] using hb'
      exact ⟨_, rfl, rfl, by simpa using hend, hchain⟩
  · rintro ⟨rest, rfl, hhead, hend, hchain⟩
    match rest, hhead with
    | y :: rest, hhead =>
      obtain rfl : y = cur + b.toNat := by simpa using hhead
      exact ⟨rfl, by simpa using hend, List.isChain_cons_cons.mpr ⟨⟨b, hb, hnz, rfl⟩, hchain⟩⟩

theorem chainPath_le (h : ChainPath f cur positions) (hpos : 0 < f.length) : cur ≤ f.length - 1 := by
  obtain ⟨hhead, hend, hchain⟩ := h
  match positions, hhead with
  | [x], hhead => simp_all
  | x :: y :: rest, hhead =>
    obtain rfl : x = cur := by simpa using hhead
    obtain ⟨⟨b, hb, _⟩, _⟩ := List.isChain_cons_cons.mp hchain
    have := (List.getElem?_eq_some_iff.mp hb).1
    omega

/-- No path leaves an inner zero byte: what a path passes before the last index points on. -/
theorem not_chainPath_of_zero (hz : f[cur]? = some 0) (hlast : cur ≠ f.length - 1) : ¬ChainPath f cur positions := by
  rintro ⟨hhead, hend, hchain⟩
  match positions, hhead with
  | [x], hhead => simp_all
  | x :: y :: rest, hhead =>
    obtain rfl : x = cur := by simpa using hhead
    obtain ⟨⟨b, hb, hnz, _⟩, _⟩ := List.isChain_cons_cons.mp hchain
    rw [hz] at hb
    exact hnz (Option.some.inj hb).symm

/-- What the loop of VALID decides (R130, R135): with fuel for the rest of the frame, it accepts just when a path leads from `cur` to the last
index. -/
theorem chainWalk_iff_path (hz : f[f.length - 1]? = some 0) (hcur : 1 ≤ cur) (hfuel : f.length ≤ cur + n) :
    chainWalk f n cur = true ↔ ∃ positions, ChainPath f cur positions := by
  have hpos : f.length - 1 < f.length := (List.getElem?_eq_some_iff.mp hz).1
  have hout {cur} (h : f.length ≤ cur) : ¬∃ positions, ChainPath f cur positions := by
    rintro ⟨positions, hp⟩
    have := chainPath_le hp (by omega)
    omega
  induction n generalizing cur with
  | zero => simpa [chainWalk] using hout (cur := cur) (by omega)
  | succ n ih =>
    rcases hb : f[cur]? with _ | b
    · have := List.getElem?_eq_none_iff.mp hb
      rw [chainWalk_outside this]
      simpa using hout this
    · by_cases hnz : b = 0
      · subst hnz
        rw [chainWalk_end (by omega) hb, decide_eq_true_eq]
        by_cases hlast : cur = f.length - 1
        · simpa [hlast] using ⟨_, chainPath_singleton⟩
        · simp [hlast, not_chainPath_of_zero hb hlast]
      · have hlast : cur ≠ f.length - 1 := by rintro rfl; exact hnz (by simpa [hb] using hz)
        have := toNat_pos hnz
        rw [chainWalk_jump (by omega) hb hnz]
        refine (ih (by omega) (by omega)).trans ?_
        simp [chainPath_jump hb hnz hlast]

end Sys2Proof.Machine
end

