-- ==== Sys2Proof/Laws/Decode.lean ====
section
/-! SUPPORT. The laws of the command decoder's parts (30_encoding R79 to R86). -/

namespace Sys2Proof

theorem takeBytes_eq_some {n : Nat} {bytes taken rest : List Byte} :
    takeBytes n bytes = some (taken, rest) ↔ taken.length = n ∧ bytes = taken ++ rest := by
  unfold takeBytes
  constructor
  · split
    · intro h
      cases h
      exact ⟨List.length_take_of_le ‹_›, (List.take_append_drop n bytes).symm⟩
    · intro h; cases h
  · rintro ⟨rfl, rfl⟩
    simp

theorem takeBytes_eq_none {n : Nat} {bytes : List Byte} : takeBytes n bytes = none ↔ bytes.length < n := by
  unfold takeBytes; split <;> simp <;> omega

theorem decodeChunk_eq_some {make : List Byte → Instr} {bytes rest : List Byte} {item : PortItem} :
    decodeChunk make bytes = some (item, rest) ↔
      ∃ data, item = .command (make data) ∧ data.length ≤ 255 ∧ bytes = BitVec.ofNat 8 data.length :: (data ++ rest) := by
  cases bytes with
  | nil => simp [decodeChunk]
  | cons n tail =>
    simp only [decodeChunk, Option.map_eq_some_iff, Prod.exists, takeBytes_eq_some, Prod.mk.injEq, List.cons.injEq]
    constructor
    · rintro ⟨data, _, ⟨hlen, rfl⟩, rfl, rfl⟩
      have := n.isLt
      exact ⟨data, rfl, by omega, by rw [hlen, BitVec.ofNat_toNat, BitVec.setWidth_eq], rfl⟩
    · rintro ⟨data, rfl, hlen, rfl, rfl⟩
      exact ⟨data, rest, ⟨by rw [BitVec.toNat_ofNat, Nat.mod_eq_of_lt (by omega)], rfl⟩, rfl, rfl⟩

theorem decodeFrameOperand_eq_some {make : List Byte → Instr} {L : Nat} {bytes rest : List Byte} {item : PortItem} :
    decodeFrameOperand make L bytes = some (item, rest) ↔
      ∃ f, item = .command (make f) ∧ f.length = L ∧ bytes = f ++ rest := by
  simp only [decodeFrameOperand, Option.map_eq_some_iff, Prod.exists, takeBytes_eq_some, Prod.mk.injEq]
  constructor
  · rintro ⟨f, _, ⟨hlen, rfl⟩, rfl, rfl⟩; exact ⟨f, rfl, hlen, rfl⟩
  · rintro ⟨f, rfl, hlen, rfl⟩; exact ⟨f, rest, ⟨hlen, rfl⟩, rfl, rfl⟩

/-- An opcode outside 1 to 7 is reserved (R86). -/
theorem decode_reserved {L : Nat} {op : Byte} (rest : List Byte) (h : op.toNat = 0 ∨ 8 ≤ op.toNat) :
    decode L (op :: rest) = some (.illegal op, rest) := by
  simp only [decode]
  split <;> first | rfl | omega

/-- The decoder gives an illegal-opcode item for a reserved opcode only. -/
theorem reserved_of_decode {L : Nat} {bytes rest : List Byte} {b : Byte} (h : decode L bytes = some (.illegal b, rest)) :
    bytes = b :: rest ∧ (b.toNat = 0 ∨ 8 ≤ b.toNat) := by
  cases bytes with
  | nil => cases h
  | cons op tail =>
    simp only [decode] at h
    split at h
    case h_1 | h_7 => obtain ⟨_, ⟨⟩, _⟩ := decodeChunk_eq_some.mp h
    case h_5 | h_6 => obtain ⟨_, ⟨⟩, _⟩ := decodeFrameOperand_eq_some.mp h
    case h_8 => cases h; refine ⟨rfl, ?_⟩; simp only [imp_false] at *; omega
    all_goals cases h

end Sys2Proof
end

