-- ==== Sys2Proof/Laws/Meanings.lean ====
section
/-! SUPPORT. What each command leaves when it answers a next state: one inversion lemma per meaning, so that no proof about commands unfolds a
meaning. -/

namespace Sys2Proof.Machine

variable {s t : State}

theorem execWrite_next {data : List Byte} (h : exec (.write data) s = .next t) :
    s.cfg.Legal ∧ s.Room data.length ∧ t = (s.stored data).respond (.pos (s.stored data).wr) := by
  obtain ⟨hl, h⟩ := configured_eq_next.mp h
  obtain ⟨u, hu, ht⟩ := andThen_eq_next.mp h
  obtain ⟨rfl, hroom⟩ := storeChunk_eq_next hu
  cases ht
  exact ⟨hl, hroom, rfl⟩

theorem execRead_next (h : exec .read s = .next t) : s.cfg.Legal ∧
    (s.count = 0 ∧ t = (s.setFault udfBit).respond (.fault .underflow) ∨
      s.count ≠ 0 ∧ s.rd < s.cfg.capacity ∧ t = (s.consumed 1).respond (.byte (s.byteAt s.rd))) := by
  obtain ⟨hl, h⟩ := configured_eq_next.mp h
  refine ⟨hl, ?_⟩
  split at h
  · cases h; exact .inl ⟨‹_›, rfl⟩
  · obtain ⟨⟨b, u⟩, hu, ht⟩ := andThen_eq_next.mp h
    obtain ⟨hrd, rfl, rfl⟩ := read1_eq_next.mp hu
    cases ht
    exact .inr ⟨‹_›, hrd, rfl⟩

theorem execUtil_next (h : exec .util s = .next t) :
    s.cfg.Legal ∧ t = s.respond (.util s.count s.cfg.capacity s.faultReg) := by
  obtain ⟨hl, h⟩ := configured_eq_next.mp h
  cases h
  exact ⟨hl, rfl⟩

theorem readToZero_rd {budget : Nat} {got : List Byte} {found : List Byte × State} (hb : 0 < budget)
    (h : readToZero budget got s = .next found) : s.rd < s.cfg.capacity := by
  obtain ⟨budget, rfl⟩ : ∃ n, budget = n + 1 := ⟨budget - 1, by omega⟩
  obtain ⟨⟨b, u⟩, hu, _⟩ := andThen_eq_next.mp h
  exact (read1_eq_next.mp hu).1

/-- An extraction that answers either had too little data or had the read cursor in range, so that `extractFrame_spec` says what it did. -/
theorem extractFrame_rd {found : Option (List Byte) × State} (hL : 2 ≤ s.cfg.frameLen) (h : extractFrame s = .next found) :
    s.count < s.cfg.frameLen ∨ s.rd < s.cfg.capacity := by
  by_cases hc : s.count < s.cfg.frameLen
  · exact .inl hc
  · rw [extractFrame, if_neg hc] at h
    obtain ⟨_, hu, _⟩ := andThen_eq_next.mp h
    exact .inr (readToZero_rd (by omega) hu)

/-- An extraction that answers leaves the state as it was or some bytes consumed, and what it hands on is none or the next `L` bytes. -/
theorem extractFrame_next {r : Option (List Byte)} (hL : 2 ≤ s.cfg.frameLen) (h : extractFrame s = .next (r, t)) :
    r = none ∧ t = s ∨ s.rd < s.cfg.capacity ∧ ∃ m ≤ s.count, t = s.consumed m ∧
      (r = none ∨ m = s.cfg.frameLen ∧ r = some (s.ahead m)) := by
  rcases extractFrame_rd hL h with hc | hrd
  · rw [extractFrame, if_pos hc] at h
    cases h; exact .inl ⟨rfl, rfl⟩
  · rcases extractFrame_spec hrd hL with ⟨_, he⟩ | ⟨hc, m, _, hm, _, ⟨_, _, he⟩ | ⟨_, _, he⟩ | ⟨heq, _, he⟩⟩ <;>
      rw [he] at h <;> cases h
    · exact .inl ⟨rfl, rfl⟩
    · exact .inr ⟨hrd, m, by omega, rfl, .inl rfl⟩
    · exact .inr ⟨hrd, m, by omega, rfl, .inl rfl⟩
    · exact .inr ⟨hrd, m, by omega, rfl, .inr ⟨heq, rfl⟩⟩

theorem execFrame_next (h : exec .frame s = .next t) :
    s.cfg.Legal ∧ ∃ r u, extractFrame s = .next (r, u) ∧ t = u.respond (frameResponse r) := by
  obtain ⟨hl, h⟩ := configured_eq_next.mp h
  obtain ⟨⟨r, u⟩, hu, ht⟩ := andThen_eq_next.mp h
  cases ht
  exact ⟨hl, r, u, hu, rfl⟩

theorem execValid_next {f : List Byte} (h : exec (.valid f) s = .next t) :
    s.cfg.Legal ∧ f.length = s.cfg.frameLen ∧ t = s.respond (.bool (validFrame f)) := by
  obtain ⟨hl, h⟩ := configured_eq_next.mp h
  obtain ⟨hlen, h⟩ := frameOperand_eq_next.mp h
  cases h
  exact ⟨hl, hlen, rfl⟩

theorem execDecode_next {f : List Byte} (h : exec (.decode f) s = .next t) :
    s.cfg.Legal ∧ f.length = s.cfg.frameLen ∧ t = s.respond (decodeResponse f) := by
  obtain ⟨hl, h⟩ := configured_eq_next.mp h
  obtain ⟨hlen, h⟩ := frameOperand_eq_next.mp h
  cases h
  exact ⟨hl, hlen, rfl⟩

theorem execPoll_next {data : List Byte} (h : exec (.poll data) s = .next t) :
    s.cfg.Legal ∧ s.Room data.length ∧ ∃ r u, extractFrame (s.stored data) = .next (r, u) ∧ t = u.respond (pollResponse r) := by
  obtain ⟨hl, h⟩ := configured_eq_next.mp h
  obtain ⟨u, hu, h⟩ := andThen_eq_next.mp h
  obtain ⟨rfl, hroom⟩ := storeChunk_eq_next hu
  obtain ⟨⟨r, v⟩, hv, ht⟩ := andThen_eq_next.mp h
  cases ht
  exact ⟨hl, hroom, r, v, hv, rfl⟩

/-! Where each command completes, over the shared operations. -/

theorem extractFrame_of_ready (h : s.Ready) : ∃ r u, extractFrame s = .next (r, u) := by
  rcases extractFrame_spec h.2.1 h.1.2.1 with ⟨_, he⟩ | ⟨_, _, _, _, _, ⟨_, _, he⟩ | ⟨_, _, he⟩ | ⟨_, _, he⟩⟩ <;> exact ⟨_, _, he⟩

theorem ready_stored (h : s.Ready) (data : List Byte) : (s.stored data).Ready :=
  ⟨by simpa using h.1, by simpa using h.2.1, by simpa using stored_wr_lt h.2.2 data⟩

theorem execWrite_of_ready (h : s.Ready) (data : List Byte) (hroom : s.Room data.length) :
    exec (.write data) s = .next ((s.stored data).respond (.pos (s.stored data).wr)) := by
  show configured s _ = _
  rw [configured_of_legal h.1, storeChunk_of_lt data h.2.2 hroom]; rfl

theorem execFrame_of_extract {r : Option (List Byte)} (h : s.cfg.Legal) (he : extractFrame s = .next (r, t)) :
    exec .frame s = .next (t.respond (frameResponse r)) := by
  show configured s _ = _
  rw [configured_of_legal h, he]; rfl

theorem execPoll_of_extract {data : List Byte} {r : Option (List Byte)} (h : s.Ready)
    (hroom : s.Room data.length) (he : extractFrame (s.stored data) = .next (r, t)) : exec (.poll data) s = .next (t.respond (pollResponse r)) := by
  show configured s _ = _
  rw [configured_of_legal h.1, storeChunk_of_lt data h.2.2 hroom, andThen_next, he]; rfl

/-- Where `count` would outgrow its register, WRITE and POLL are refused by its width (93 U4). -/
theorem execWrite_of_full {data : List Byte} {w : Nat} (h : s.Ready) (hw : s.cfg.countWidth = some w) (hcount : s.count < 2 ^ w)
    (hfull : 2 ^ w ≤ s.count + data.length) : exec (.write data) s = .refused (.countWidth w) := by
  show configured s _ = _
  rw [configured_of_legal h.1, storeChunk_of_full h.2.2 hw hcount hfull]; rfl

theorem execPoll_of_full {data : List Byte} {w : Nat} (h : s.Ready) (hw : s.cfg.countWidth = some w) (hcount : s.count < 2 ^ w)
    (hfull : 2 ^ w ≤ s.count + data.length) : exec (.poll data) s = .refused (.countWidth w) := by
  show configured s _ = _
  rw [configured_of_legal h.1, storeChunk_of_full h.2.2 hw hcount hfull]; rfl

end Sys2Proof.Machine
end

