-- ==== Sys2Proof/Laws/Invariant.lean ====
section
/-! SUPPORT. The invariant of the buffer over the shared operations: which fields it depends on, and that storing a chunk and consuming bytes
keep it. -/

namespace Sys2Proof.Machine

variable {s t : State}

/-- The invariant depends on the configuration, the cursors, `count`, storage and OVF alone. -/
theorem inv_congr (h : s.Inv) (hcfg : t.cfg = s.cfg) (hrd : t.rd = s.rd) (hwr : t.wr = s.wr) (hcount : t.count = s.count)
    (hstorage : t.storage = s.storage) (hovf : t.ovf = s.ovf) : t.Inv where
  ready := by unfold State.Ready; rw [hcfg, hrd, hwr]; exact h.ready
  held := by rw [hcfg, hcount]; exact h.held
  canonical := hstorage ▸ h.canonical
  inRange := by rw [hstorage, hcfg]; exact h.inRange
  bounded := by rw [hovf, hcount, hcfg]; exact h.bounded
  cursors := by rw [hcfg, hrd, hwr, hcount]; exact h.cursors
  written := by rw [hcfg, hrd, hcount, hstorage]; exact h.written

/-- Every slot a chunk is stored to holds a value afterwards. -/
theorem stored_written (hwr : s.wr < s.cfg.capacity) (data : List Byte) {k : Nat} (hk : k < data.length) :
    (s.stored data).storage.read ((s.wr + k) % s.cfg.capacity) ≠ none := by
  induction data generalizing s k with
  | nil => simp at hk
  | cons b data ih =>
    cases k with
    | zero => rw [stored_cons]; apply stored_read_ne_none; simp [Nat.mod_eq_of_lt hwr]
    | succ k =>
      have := ih (s := s.storedByte b) (by simpa using incIndex_lt hwr) (k := k) (by simpa using hk)
      simpa [incIndex_add_mod] using this

theorem inv_stored (h : s.Inv) (data : List Byte) (hroom : s.Room data.length) : (s.stored data).Inv where
  ready := ready_stored h.ready data
  held := by
    rw [stored_cfg, stored_count]
    rcases hroom with h0 | hroom
    · simpa [h0] using h.held
    · exact hroom
  canonical := stored_wf data h.canonical
  inRange := by simpa using stored_within data h.ready.2.2 h.inRange
  bounded := by
    intro hovf
    simp only [State.ovf, stored_faultReg] at hovf
    simp only [stored_count, stored_cfg]
    split at hovf
    · simp [ovfBit] at hovf
    · by_cases hd : data = []
      · subst hd; simpa using h.bounded hovf
      · simp_all
  cursors := by rw [stored_wr h.ready.2.2, h.cursors]; simp [Nat.add_assoc]
  written := by
    intro k hk
    simp only [stored_count, stored_rd, stored_cfg] at hk ⊢
    by_cases hks : k < s.count
    · exact stored_read_ne_none data (h.written k hks)
    · have := stored_written h.ready.2.2 data (k := k - s.count) (by omega)
      rwa [h.cursors, Nat.mod_add_mod, Nat.add_assoc, show s.count + (k - s.count) = k by omega] at this

theorem inv_consumed (h : s.Inv) {m : Nat} (hm : m ≤ s.count) : (s.consumed m).Inv where
  ready := ⟨h.ready.1, Nat.mod_lt _ h.ready.1.1, h.ready.2.2⟩
  held := holdsCount_mono (Nat.sub_le _ _) h.held
  canonical := zeroSlots_wf _ _ h.canonical
  inRange := zeroSlots_within _ _ h.ready.2.1 h.inRange
  bounded := fun hovf => Nat.le_trans (Nat.sub_le _ _) (h.bounded hovf)
  cursors := by simp [h.cursors]; congr 1; omega
  written := by
    intro k hk
    simp only [State.consumed_count] at hk
    simp only [State.consumed_storage, State.consumed_rd, State.consumed_cfg, Nat.mod_add_mod, Nat.add_assoc]
    exact zeroSlots_read_ne_none _ _ (h.written (m + k) (by omega))

end Sys2Proof.Machine
end

