-- ==== Sys2Proof/Laws/PerInstr.lean ====
section
/-! SUPPORT. Statements made once per command. Family PacketLength: the packet the encoder writes for a well-formed command has the length
30_encoding R82 gives it. -/

namespace Sys2Proof.Laws

/-- The packet of a well-formed command has the length of R82. -/
def PacketLength.Statement (i : Instr) : Prop :=
  ∀ L : Nat, i.wellFormed L = true → (encode i).length = i.packetLength L

theorem PacketLength.write (data : List Byte) : PacketLength.Statement (.write data) := fun _ _ => by
  simp only [encode, Instr.packetLength, List.length_cons]; omega

theorem PacketLength.read : PacketLength.Statement .read := fun _ _ => rfl

theorem PacketLength.util : PacketLength.Statement .util := fun _ _ => rfl

theorem PacketLength.frame : PacketLength.Statement .frame := fun _ _ => rfl

theorem PacketLength.valid (f : List Byte) : PacketLength.Statement (.valid f) := fun L h => by
  have : f.length = L := by simpa [Instr.wellFormed] using h
  simp [encode, Instr.packetLength, this, Nat.add_comm]

theorem PacketLength.decode (f : List Byte) : PacketLength.Statement (.decode f) := fun L h => by
  have : f.length = L := by simpa [Instr.wellFormed] using h
  simp [encode, Instr.packetLength, this, Nat.add_comm]

theorem PacketLength.poll (data : List Byte) : PacketLength.Statement (.poll data) := fun _ _ => by
  simp only [encode, Instr.packetLength, List.length_cons]; omega

end Sys2Proof.Laws
end

