-- ==== Sys2Proof/Tests/Slice0.lean ====
section
/-! SUPPORT. Tests: the checks of WellFormed, decoding of packets written out from 30_encoding R81, one-step vectors of 95_test_vectors (each named by
its number there), and for every obligation with hypotheses a state and operands that meet them (a witness). -/

namespace Sys2Proof.Tests

open Sys2Proof.Machine

/-! ### Helpers -/

/-- The state a command or a step answers, when it answers one. -/
def nextOf : Result State → Option State
  | .next t => some t
  | .fault _ => none
  | .refused _ => none

/-- The state after `i` from `s`; `s` itself where the command stops. -/
def after (i : Instr) (s : State) : State := (nextOf (exec i s)).getD s

/-- The state one step from `s`; `s` itself where the step stops. -/
def stepped (s : State) : State := (nextOf (step s)).getD s

/-- A core of capacity `C` and frame length `L` whose storage holds `bytes` from slot 0 on. -/
def coreWith (C L rd wr count : Nat) (bytes : List Byte) (faultReg : BitVec 3 := 0) (port : List Byte := []) : State :=
  { cfg := { capacity := C, frameLen := L }, rd := rd, wr := wr, count := count, storage := bytes.zipIdx.map fun x => (x.2, x.1),
    faultReg := faultReg, port := port, responses := [] }

/-- What a response row of 95_test_vectors shows: rd, wr, count, FAULT, the listed slots from 0 on, and the responses. -/
def shown (t : State) : Nat × Nat × Nat × BitVec 3 × List Byte × List Response :=
  (t.rd, t.wr, t.count, t.faultReg, t.storage.map Prod.snd, t.responses)

/-! ### WellFormed -/

theorem test_wellFormed_refuses_write_of_256_bytes : (Instr.write (List.replicate 256 7)).wellFormed 16 = false := by decide +kernel
theorem test_wellFormed_refuses_poll_of_256_bytes : (Instr.poll (List.replicate 256 7)).wellFormed 16 = false := by decide +kernel
theorem test_wellFormed_refuses_valid_of_other_length :
    (Instr.valid [1]).wellFormed 2 = false ∧ (Instr.valid [1, 1, 0]).wellFormed 2 = false := by decide
theorem test_wellFormed_refuses_decode_of_other_length :
    (Instr.decode [1]).wellFormed 2 = false ∧ (Instr.decode [1, 1, 0]).wellFormed 2 = false := by decide
theorem test_wellFormed_accepts : (Instr.write (List.replicate 255 7)).wellFormed 16 = true ∧ Instr.read.wellFormed 16 = true ∧
    Instr.util.wellFormed 16 = true ∧ Instr.frame.wellFormed 16 = true ∧ (Instr.valid [1, 0]).wellFormed 2 = true ∧
    (Instr.decode [1, 0]).wellFormed 2 = true ∧ (Instr.poll []).wellFormed 16 = true := by decide +kernel

/-! ### Decoding (R79 to R86, V63 to V70, the listings P1 and P2), bits written out from R81 -/

theorem test_decode_write : decode 4 [0b00000001, 4, 3, 7, 9, 0, 4] = some (.command (.write [3, 7, 9, 0]), [4]) := by decide
theorem test_decode_read : decode 4 [0b00000010, 1] = some (.command .read, [1]) := by decide
theorem test_decode_util : decode 4 [0b00000011, 1] = some (.command .util, [1]) := by decide
theorem test_decode_frame : decode 4 [0b00000100, 6] = some (.command .frame, [6]) := by decide
theorem test_decode_valid : decode 4 [0b00000101, 3, 7, 9, 0, 255] = some (.command (.valid [3, 7, 9, 0]), [255]) := by decide
theorem test_decode_decode : decode 4 [0b00000110, 3, 7, 9, 0] = some (.command (.decode [3, 7, 9, 0]), []) := by decide
theorem test_decode_poll : decode 4 [0b00000111, 0, 2] = some (.command (.poll []), [2]) := by decide

theorem test_decodeStream_V63 : decodeStream 4 [0x01, 0x04, 0x03, 0x07, 0x09, 0x00, 0x04, 0x06, 0x03, 0x07, 0x09, 0x00] =
    ([.command (.write [3, 7, 9, 0]), .command .frame, .command (.decode [3, 7, 9, 0])], []) := by decide
theorem test_decodeStream_V65 : decodeStream 4 [0x08, 0x02] = ([.illegal 0x08, .command .read], []) := by decide
theorem test_decodeStream_V67 : decodeStream 4 [0x01, 0x03, 0x09, 0x09] = ([], [0x01, 0x03, 0x09, 0x09]) := by decide
theorem test_decodeStream_V69 : decodeStream 4 [0x01, 0x00, 0x02] = ([.command (.write []), .command .read], []) := by decide

/-- Every opcode byte outside 1 to 7 is reserved (R81). -/
theorem test_decode_reserved : ∀ op : Byte, (1 ≤ op.toNat ∧ op.toNat ≤ 7) ∨ decode 4 [op] = some (.illegal op, []) := by decide

theorem test_decodeTableWord :
    decodeTableWord 16 0x0001 = some (.write []) ∧ decodeTableWord 16 0x0201 = some (.write [0, 0]) ∧
    decodeTableWord 8 0x02 = some .read ∧ decodeTableWord 8 0x03 = some .util ∧ decodeTableWord 8 0x04 = some .frame ∧
    decodeTableWord 8 0x05 = some (.valid (List.replicate 16 0)) ∧
    decodeTableWord 24 0x0A0106 = some (.decode ([1, 10] ++ List.replicate 14 0)) ∧
    decodeTableWord 16 0x0107 = some (.poll [0]) ∧ decodeTableWord 8 0x08 = none := by decide +kernel

/-- From reset the very next step performs the row's word and leaves the port empty. -/
theorem test_withFetchWord : ∀ row ∈ [(16, 0x0201), (8, 0x02), (8, 0x03), (8, 0x04), (8, 0x05), (8, 0x06), (16, 0x0107)],
    ∃ i, decodeTableWord row.1 row.2 = some i ∧ nextOf (step (State.reset.withFetchWord row.1 row.2)) = nextOf (exec i State.reset) := by
  intro row hrow
  refine ⟨(decodeTableWord row.1 row.2).getD .read, ?_⟩
  revert row
  decide +kernel

theorem test_assemble_and_split : assemble [.write [3, 7, 9, 0], .frame] = [0x01, 0x04, 0x03, 0x07, 0x09, 0x00, 0x04] ∧
    (pseudoWrite (List.replicate 300 7)).map encode =
      [0x01 :: 0xFF :: List.replicate 255 7, 0x01 :: 0x2D :: List.replicate 45 7] := by decide +kernel

/-! ### One command each (95_test_vectors section 2) -/

theorem test_write_V7 : shown (after (.write [4, 5, 6]) (coreWith 4 2 2 3 1 [0, 0, 3])) =
    (2, 2, 4, 0, [5, 6, 3, 4], [.pos 2]) := by decide
theorem test_write_V8 : shown (after (.write [1, 2, 3, 4, 5, 6]) (coreWith 4 2 0 0 0 [])) =
    (0, 2, 6, 0b001, [5, 6, 3, 4], [.pos 2]) := by decide
theorem test_read_V11 : shown (after .read (coreWith 4 2 0 3 3 [1, 2, 3])) = (1, 3, 2, 0, [0, 2, 3], [.byte 1]) := by decide
theorem test_read_V12 : shown (after .read (coreWith 8 4 0 0 0 [])) = (0, 0, 0, 0b010, [], [.fault .underflow]) := by decide
theorem test_util_V18 : shown (after .util (coreWith 4 2 0 2 6 [5, 6, 3, 4] 0b001)) =
    (0, 2, 6, 0b001, [5, 6, 3, 4], [.util 6 4 1]) := by decide
theorem test_util_percent_V16 : (Response.util 3 8 0).percent = some (75 / 2) := by simp only [Response.percent]; norm_num
theorem test_frame_V21 : shown (after .frame (coreWith 8 4 0 4 4 [3, 7, 9, 0])) =
    (4, 4, 0, 0, [0, 0, 0, 0], [.frame [3, 7, 9, 0]]) := by decide
theorem test_frame_V22 : shown (after .frame (coreWith 8 4 0 6 6 [5, 0, 3, 7, 9, 0])) =
    (2, 6, 4, 0, [0, 0, 3, 7, 9, 0], [.noFrame]) := by decide
theorem test_valid_S4 : (after (.valid [1, 1, 3, 10, 10, 1, 3, 11, 11, 1, 3, 12, 12, 1, 1, 0]) State.reset).responses = [.bool true] := by decide
theorem test_valid_V31 : (after (.valid [6, 1, 2, 3, 4, 0]) (coreWith 8 6 0 0 0 [])).responses = [.bool false] := by decide
theorem test_decode_S8 : (after (.decode [1, 1, 3, 10, 10, 1, 3, 11, 11, 1, 5, 12, 12, 1, 1, 0]) State.reset).responses =
    [.record [0, 0, 10, 10, 0, 0, 11, 11, 0, 0, 12, 12, 1, 1]] := by decide
theorem test_decode_V58 : (after (.decode [2, 7, 0, 8, 9, 0]) (coreWith 8 6 0 0 0 [])).responses = [.malformed [2, 7, 0, 8, 9, 0]] := by decide
theorem test_poll_V61 : shown (after (.poll [9, 1, 2, 3, 4, 0]) (coreWith 16 6 0 0 0 [])) =
    (6, 6, 0, 0, [0, 0, 0, 0, 0, 0], [.malformed [9, 1, 2, 3, 4, 0]]) := by decide
theorem test_poll_V62 : shown (after (.poll [9, 9, 9, 9, 1, 0]) (coreWith 4 2 0 0 0 [])) =
    (2, 2, 4, 0b001, [0, 0, 9, 9], [.record []]) := by decide

/-! ### Witnesses: states -/

/-- Full, wrapped: `C = 4`, `L = 2` (after V7). -/
def full : State := coreWith 4 2 2 2 4 [5, 6, 3, 4]

/-- One free slot: `C = 4`, `L = 2`. -/
def oneFree : State := coreWith 4 2 0 3 3 [1, 2, 3]

/-- Full and unwrapped, with a WRITE of one byte on the port. -/
def fullWithWrite : State := { coreWith 4 2 0 0 4 [1, 2, 3, 4] with port := [0x01, 0x01, 0x09] }

/-- A state reached by a delivery and a step: three bytes written into a core of `C = 4`, `L = 6`. -/
def reached : State := stepped ((State.resetWith ⟨4, 6, none⟩).deliver [0x01, 0x03, 3, 7, 9])

/-- `C = 4` and `count` in 3 bits, with room for one byte more (`count = 6`) after an overflow; READ waits on the port. -/
def narrow : State := { coreWith 4 2 0 2 6 [5, 6, 3, 4] 0b001 [0x02] with cfg := ⟨4, 2, some 3⟩ }

theorem narrow_inv : narrow.Inv where
  ready := by decide
  held := by decide
  canonical := by decide
  inRange := by decide
  bounded := by decide
  cursors := by decide
  written := by decide

theorem full_inv : full.Inv where
  ready := by decide
  held := by decide
  canonical := by decide
  inRange := by decide
  bounded := by decide
  cursors := by decide
  written := by decide

theorem fullWithWrite_inv : fullWithWrite.Inv where
  ready := by decide
  held := by decide
  canonical := by decide
  inRange := by decide
  bounded := by decide
  cursors := by decide
  written := by decide

theorem reached_reachable : Reachable ⟨4, 6, none⟩ reached := .step (.deliver [0x01, 0x03, 3, 7, 9] .reset) rfl

/-! ### Witnesses: the command port -/

theorem witness_DecodeEncodeRoundTrip : ∀ i ∈ [Instr.write (List.replicate 255 0xFF), .read, .util, .frame, .valid [1, 1, 3, 0],
    .decode [3, 7, 9, 0], .poll []], i.wellFormed 4 = true := by decide +kernel
theorem witness_DecodedCommandIsItsPacket : decode 4 [0x07, 0x01, 0x09, 0x02] = some (.command (.poll [9]), [0x02]) := by decide
theorem witness_LaterBytesKeepDecoding : decode 4 [0x00] = some (.illegal 0x00, []) ∧ decode 4 [0x02] = some (.command .read, []) := by decide
theorem witness_StreamDecodesToItems : (∀ i ∈ [Instr.write [], .valid [1, 1, 1, 0]], i.wellFormed 4 = true) ∧
    decode 4 [0x01, 0x03, 0x09, 0x09] = none ∧ .command .read ∈ (decodeStream 4 [0x02, 0xFF]).1 ∧
    .illegal 0xFF ∈ (decodeStream 4 [0x02, 0xFF]).1 := by decide
theorem witness_ReservedOpcodeIsRejected : ∀ b ∈ [(0x00 : Byte), 0x08, 0xFF], full.cfg.Legal ∧
    (full.withPort [b, 0x02]).port = b :: [0x02] ∧ (b.toNat = 0 ∨ 8 ≤ b.toNat) := by decide
theorem witness_IncompletePacketChangesNothing : full.cfg.Legal ∧ (Instr.write [9]).wellFormed full.cfg.frameLen = true ∧
    ∀ k ∈ [0, 2], k < (encode (.write [9])).length ∧
      (full.withPort ((encode (.write [9])).take k)).port = (encode (.write [9])).take k := by decide
theorem witness_StepRunsDecodedCommand : fullWithWrite.cfg.Legal ∧
    decode fullWithWrite.cfg.frameLen fullWithWrite.port = some (.command (.write [9]), []) := by decide

/-! ### Witnesses: reset, invariant, runs -/

theorem witness_ResetMeetsInvariant : Config.Legal ⟨1, 2, none⟩ := by decide
theorem witness_StepKeepsInvariant : fullWithWrite.Inv ∧ step fullWithWrite = .next (stepped fullWithWrite) ∧
    (stepped fullWithWrite).count = 5 := ⟨fullWithWrite_inv, rfl, by decide⟩
/-- Without a width; with one, and room for the command in front; with one, and no room. -/
theorem witness_StepAlwaysAnswers : full.Inv ∧ full.cfg.countWidth = none ∧ narrow.Inv ∧
    decode narrow.cfg.frameLen narrow.port = some (.command .read, []) ∧ narrow.Room (bytesWritten .read).length ∧
    step (narrow.withPort [0x01, 0x02, 0x09, 0x09]) = .refused (.countWidth 3) :=
  ⟨full_inv, rfl, narrow_inv, by decide, by decide, rfl⟩
theorem witness_ReachableStatesMeetInvariant : Config.Legal ⟨4, 6, none⟩ ∧ Reachable ⟨4, 6, none⟩ reached ∧ reached.ovf = false :=
  ⟨by decide, reached_reachable, by decide⟩

/-! ### Witnesses: the buffer -/

theorem witness_IncrementIsCyclic : 2 < 5 ∧ 0 < 1 := by decide
/-- The clauses of WriteStoresChunk: the oldest byte of six that keeps its slot; a slot outside the chunk; each side of the OVF clause. -/
theorem witness_WriteStoresChunk : oneFree.Ready ∧ narrow.Ready ∧ narrow.Room 1 ∧ oneFree.Room 6 ∧ (2 < [1, 2, 3, 4, 5, 6].length ∧ [1, 2, 3, 4, 5, 6].length ≤ 2 + oneFree.cfg.capacity) ∧
    (∀ k < [(9 : Byte)].length, 0 ≠ (oneFree.wr + k) % oneFree.cfg.capacity) ∧
    oneFree.cfg.capacity < oneFree.count + 2 ∧ ¬oneFree.cfg.capacity < oneFree.count + 1 := by decide
theorem witness_OverflowingByteIsStored : full.Ready ∧ full.Room 1 ∧ oneFree.Room 1 ∧ full.cfg.capacity ≤ full.count ∧ oneFree.Ready ∧
    ¬oneFree.cfg.capacity ≤ oneFree.count ∧ 0 ≠ full.wr := by decide
theorem witness_WritesConcatenate : full.Ready ∧ full.Room ([1, 2] ++ [(3 : Byte)]).length := by decide
theorem witness_LongWriteIsUndivided : full.Ready ∧ full.Room 300 := by decide
theorem witness_ReadTakesOneByte : (coreWith 4 2 1 1 0 [0]).Ready ∧ (coreWith 4 2 1 1 0 [0]).count = 0 ∧ oneFree.Ready ∧
    oneFree.count ≠ 0 ∧ 1 ≠ oneFree.rd := by decide
theorem witness_ReadReturnsWrittenByte : Config.Legal ⟨4, 6, none⟩ ∧ Reachable ⟨4, 6, none⟩ reached ∧ reached.count ≠ 0 :=
  ⟨by decide, reached_reachable, by decide⟩
theorem witness_UtilObservesFillLevel : oneFree.cfg.Legal ∧ 0 < oneFree.count ∧ oneFree.count < oneFree.cfg.capacity := by decide
theorem witness_UtilisationAfterWrites : Config.Legal ⟨4, 2, none⟩ ∧ Config.holdsCount ⟨4, 2, none⟩ [[(1 : Byte)], [2, 3, 4]].flatten.length = true ∧
    [[(1 : Byte)], [2, 3, 4]].flatten.length ≤ 4 := by decide

/-- FRAME with too few bytes, with a zero as first byte and as last but one, with no zero, and with a frame; `L = 4`. -/
theorem witness_FrameOutcomes :
    (coreWith 8 4 0 3 3 [3, 7, 9]).Ready ∧ (coreWith 8 4 0 3 3 [3, 7, 9]).count < 4 ∧
    (∀ x ∈ [(0, coreWith 8 4 0 4 4 [0, 7, 9, 0]), (2, coreWith 8 4 0 4 4 [3, 7, 0, 0])],
      x.2.Ready ∧ 4 ≤ x.2.count ∧ x.1 + 1 < 4 ∧ x.2.aheadByte x.1 = 0 ∧ ∀ k < x.1, x.2.aheadByte k ≠ 0) ∧
    ((coreWith 8 4 0 5 5 [5, 6, 7, 8, 9]).Ready ∧ ∀ k < 4, (coreWith 8 4 0 5 5 [5, 6, 7, 8, 9]).aheadByte k ≠ 0) ∧
    ((coreWith 8 4 0 4 4 [3, 7, 9, 0]).Ready ∧ (coreWith 8 4 0 4 4 [3, 7, 9, 0]).aheadByte 3 = 0 ∧
      ∀ k < 3, (coreWith 8 4 0 4 4 [3, 7, 9, 0]).aheadByte k ≠ 0) := by decide

/-- A buffered frame that FRAME returns and VALID rejects. -/
def badFrameIn : State := coreWith 8 4 0 4 4 [9, 7, 9, 0]

theorem witness_ReturnedFrameShape : exec .frame badFrameIn = .next (after .frame badFrameIn) ∧
    (after .frame badFrameIn).responses = badFrameIn.responses ++ [.frame [9, 7, 9, 0]] ∧ validFrame [9, 7, 9, 0] = false :=
  ⟨rfl, by decide, by decide⟩

/-- FRAME stopped by a zero, and by its budget. -/
theorem witness_FrameRealignsBehindZero : ∀ s ∈ [coreWith 8 4 0 6 6 [5, 0, 3, 7, 9, 0], coreWith 8 4 0 5 5 [5, 6, 7, 8, 9]],
    s.Ready ∧ nextOf (exec .frame s) = some (after .frame s) ∧ (after .frame s).count < s.count := by decide
theorem witness_ReadersTouchOnlyConsumedSlots : badFrameIn.Ready ∧ exec .frame badFrameIn = .next (after .frame badFrameIn) ∧
    0 < badFrameIn.count - (after .frame badFrameIn).count ∧
    (∀ k < badFrameIn.count - (after .frame badFrameIn).count, 5 ≠ (badFrameIn.rd + k) % badFrameIn.cfg.capacity) ∧
    State.reset.Ready ∧ exec .read State.reset = .next (after .read State.reset) ∧
    (after .read State.reset).udf ≠ State.reset.udf :=
  ⟨by decide, rfl, by decide, by decide, by decide, rfl, by decide⟩

/-! ### Witnesses: frames -/

/-- An idle core of `L = 6`, `C = 8`. -/
def idle6 : State := coreWith 8 6 0 0 0 []

theorem chain_of_V28 : IsPointerChain [2, 7, 3, 8, 9, 0] [0, 2, 5] :=
  ⟨by decide, rfl, rfl, .cons_cons ⟨2, rfl, by decide, rfl⟩ (.cons_cons ⟨3, rfl, by decide, rfl⟩ (.singleton _))⟩

theorem chain_of_V41 : IsPointerChain [1, 0] [0, 1] := ⟨by decide, rfl, rfl, .cons_cons ⟨1, rfl, by decide, rfl⟩ (.singleton _)⟩

theorem witness_ValidMeetsClosedForm : idle6.cfg.Legal ∧ [(2 : Byte), 7, 3, 8, 9, 0].length = idle6.cfg.frameLen ∧
    ([2, 7, 3, 8, 9, 0] : List Byte)[idle6.cfg.frameLen - 1]? = some 0 ∧ IsPointerChain [2, 7, 3, 8, 9, 0] [0, 2, 5] ∧
    IsPointerChain [1, 0] [0, 1] := ⟨by decide, by decide, by decide, chain_of_V28, chain_of_V41⟩

/-- One frame of `L = 6` for each clause: V38, V30, V31 and V36; and V27, which meets none of the first two. -/
theorem witness_IllFormedFrameCases : idle6.cfg.Legal ∧
    (∀ f ∈ [([2, 7, 3, 8, 9, 1] : List Byte), [0, 1, 2, 3, 4, 0], [6, 1, 2, 3, 4, 0], [2, 7, 0, 8, 9, 0]], f.length = idle6.cfg.frameLen ∧
      (after (.valid f) idle6).responses = [.bool false]) ∧
    ([2, 7, 3, 8, 9, 1] : List Byte)[5]? ≠ some 0 ∧ ([0, 1, 2, 3, 4, 0] : List Byte)[0]? = some 0 ∧
    (OnChain [6, 1, 2, 3, 4, 0] 6 ∧ idle6.cfg.frameLen ≤ 6) ∧
    (OnChain [2, 7, 0, 8, 9, 0] 2 ∧ 2 < idle6.cfg.frameLen - 1 ∧ ([2, 7, 0, 8, 9, 0] : List Byte)[2]? = some 0) :=
  ⟨by decide, by decide, by decide, by decide, ⟨.first (b := 6) rfl, by decide⟩, ⟨.first (b := 2) rfl, by decide, by decide⟩⟩

/-- A chain position at the bound: `L = 2`, first byte 255. -/
theorem witness_ChainWalkIsBounded : Config.Legal ⟨8, 2, none⟩ ∧ ([255, 0] : List Byte)[0]? = some 255 ∧ OnChain [255, 0] 255 ∧
    ([255, 0] : List Byte)[1]? = some 0 := ⟨by decide, by decide, .first (b := 255) rfl, by decide⟩

theorem witness_DecodeRestoresZeros : idle6.cfg.Legal ∧ [(2 : Byte), 7, 3, 8, 9, 0].length = idle6.cfg.frameLen ∧
    ([2, 7, 3, 8, 9, 0] : List Byte)[idle6.cfg.frameLen - 1]? = some 0 ∧ IsPointerChain [2, 7, 3, 8, 9, 0] [0, 2, 5] ∧
    ∀ k < idle6.cfg.frameLen - 1, 1 ≤ k → ([2, 7, 3, 8, 9, 0] : List Byte)[k]? ≠ some 0 :=
  ⟨by decide, by decide, by decide, chain_of_V28, by decide⟩
theorem witness_DecodeRefusesInvalidFrame : idle6.cfg.Legal ∧ [(5 : Byte), 1, 2, 3, 4, 9].length = idle6.cfg.frameLen ∧
    ¬(([5, 1, 2, 3, 4, 9] : List Byte)[idle6.cfg.frameLen - 1]? = some 0 ∧ ∃ positions, IsPointerChain [5, 1, 2, 3, 4, 9] positions) :=
  ⟨by decide, by decide, fun h => absurd h.1 (by decide)⟩
theorem witness_SinglePointerFrameIsCopied : idle6.cfg.Legal ∧ [(5 : Byte), 1, 2, 3, 4, 0].length = idle6.cfg.frameLen ∧
    ([5, 1, 2, 3, 4, 0] : List Byte)[0]? = some 5 ∧ (5 : Byte).toNat = idle6.cfg.frameLen - 1 ∧
    ([5, 1, 2, 3, 4, 0] : List Byte)[idle6.cfg.frameLen - 1]? = some 0 := by decide

/-- A payload with a zero, and one of 254 bytes whose gap is the longest a pointer can hold. -/
theorem witness_DecodeUndoesStuffing : idle6.cfg.Legal ∧ [(7 : Byte), 0, 8, 9].length = idle6.cfg.payloadLen ∧
    stuffable [7, 0, 8, 9] = true ∧ (List.replicate 254 (7 : Byte)).length = Config.payloadLen ⟨8, 256, none⟩ ∧
    stuffable (List.replicate 254 7) = true := by decide +kernel
theorem witness_StuffingUndoesDecode : validFrame [2, 7, 3, 8, 9, 0] = true ∧
    ∀ k < [(2 : Byte), 7, 3, 8, 9, 0].length - 1, 1 ≤ k → ([2, 7, 3, 8, 9, 0] : List Byte)[k]? ≠ some 0 := by decide
/-- The second state differs in `C`, the cursors, `count`, storage and FAULT, and agrees in `L`. -/
theorem witness_PureCommandsIgnoreBuffer : (coreWith 9 2 5 8 3 [1, 2, 3, 4, 5, 6, 7, 8] 0b111).cfg.Legal ∧
    (coreWith 9 2 5 8 3 [1, 2, 3, 4, 5, 6, 7, 8] 0b111).cfg.frameLen = full.cfg.frameLen ∧
    exec (.valid [1, 0]) full = .next (after (.valid [1, 0]) full) ∧ exec (.decode [2, 0]) full = .next (after (.decode [2, 0]) full) ∧
    exec .util full = .next (after .util full) := ⟨by decide, by decide, rfl, rfl, rfl⟩

/-! ### Witnesses: POLL and the whole machine -/

theorem witness_PollIsWriteFrameDecode : full.Ready ∧ full.Room 2 ∧ narrow.Ready ∧ narrow.Room 0 := by decide
theorem witness_WriteThenPollIsOnePoll : full.Ready ∧ full.Room ([1, 0] ++ [(1 : Byte), 0]).length := by decide
theorem witness_LongPollIsUndivided : full.Ready ∧ full.Room 256 ∧ ¬(List.replicate 256 (7 : Byte)).length ≤ 255 ∧ (List.replicate 255 (7 : Byte)).length ≤ 255 := by
  decide +kernel
theorem witness_PollTouchesOnlyItsSlots : idle6.Ready ∧ exec (.poll [5, 1, 2, 3, 4, 0]) idle6 = .next (after (.poll [5, 1, 2, 3, 4, 0]) idle6) ∧
    (after (.poll [5, 1, 2, 3, 4, 0]) idle6).count = 0 ∧ ∀ k < 6, 7 ≠ (idle6.wr + k) % idle6.cfg.capacity :=
  ⟨by decide, rfl, by decide, by decide⟩

/-- Garbage shorter than a frame, and exactly as long as one; in both the buffer is exactly full. -/
theorem witness_OneFrameThenGarbage : validFrame [2, 7, 3, 8, 9, 0] = true ∧
    (∀ k < 5, 1 ≤ k → ([2, 7, 3, 8, 9, 0] : List Byte)[k]? ≠ some 0) ∧
    ∀ x ∈ [((⟨8, 6, none⟩ : Config), ([9, 9] : List Byte)), (⟨12, 6, none⟩, [9, 9, 9, 9, 9, 9])], x.1.Legal ∧
      [(2 : Byte), 7, 3, 8, 9, 0].length = x.1.frameLen ∧ x.1.frameLen + x.2.length ≤ x.1.capacity := by decide
theorem witness_FaultBitsAreSticky : step fullWithWrite = .next (stepped fullWithWrite) ∧
    exec .read State.reset = .next (after .read State.reset) ∧ (after .read State.reset).udf ≠ State.reset.udf ∧
    exec (.write [9]) full = .next (after (.write [9]) full) ∧ (after (.write [9]) full).ovf ≠ full.ovf :=
  ⟨rfl, rfl, by decide, rfl, by decide⟩
theorem witness_FaultRegisterIsNotConsulted : Instr.read ≠ .util ∧ exec .read full = .next (after .read full) ∧ full.cfg.Legal :=
  ⟨by decide, rfl, by decide⟩
theorem witness_ConfigurationNeverChanges : step fullWithWrite = .next (stepped fullWithWrite) := rfl
theorem witness_OneTypedResponsePerCommand : full.Ready ∧ exec .frame full = .next (after .frame full) ∧
    decode full.cfg.frameLen (full.withPort [0x08, 0x02]).port = some (.illegal 0x08, [0x02]) := ⟨by decide, rfl, by decide⟩
theorem witness_RegistersAreWrittenBy : exec .read full = .next (after .read full) ∧ (after .read full).rd ≠ full.rd ∧
    (after .read full).count ≠ full.count ∧ exec (.write [9]) full = .next (after (.write [9]) full) ∧
    (after (.write [9]) full).wr ≠ full.wr ∧ (after (.write [9]) full).storage ≠ full.storage :=
  ⟨rfl, by decide, by decide, rfl, by decide, by decide⟩

/-- A full core of `C = 4`, `L = 2` that holds the frame `1 0`. -/
def frameIn : State := coreWith 4 2 2 2 4 [8, 9, 1, 0]

theorem frameIn_inv : frameIn.Inv where
  ready := by decide
  held := by decide
  canonical := by decide
  inRange := by decide
  bounded := by decide
  cursors := by decide
  written := by decide

theorem witness_BufferIsAQueue : frameIn.Inv ∧ exec .read frameIn = .next (after .read frameIn) ∧
    (after .read frameIn).ovf = false ∧ frameIn.unread = 1 :: [0, 8, 9] ∧
    exec .frame frameIn = .next (after .frame frameIn) ∧ (after .frame frameIn).ovf = false ∧
    (after .frame frameIn).responses = frameIn.responses ++ [.frame [1, 0]] :=
  ⟨frameIn_inv, rfl, by decide, by decide, rfl, by decide, by decide⟩
theorem witness_BufferRoundTrip : Config.Legal ⟨4, 2, none⟩ ∧ [[(1 : Byte), 2, 3], [], [4]].flatten.length ≤ 4 := by decide
theorem witness_SmallBufferGivesNoFrame : Config.Legal ⟨4, 6, none⟩ ∧ Reachable ⟨4, 6, none⟩ reached ∧ 4 < 6 ∧ reached.ovf = false ∧
    exec (.poll [0]) reached = .next (after (.poll [0]) reached) ∧ (after (.poll [0]) reached).ovf = false :=
  ⟨by decide, reached_reachable, by decide, by decide, rfl, by decide⟩
theorem witness_ModelStopsByName : ¬(State.resetWith ⟨0, 2, none⟩).cfg.Legal ∧ ¬(State.resetWith ⟨1, 1, none⟩).cfg.Legal ∧
    ¬(State.resetWith ⟨4, 2, some 2⟩).cfg.Legal ∧ full.cfg.Legal ∧
    [(1 : Byte)].length ≠ full.cfg.frameLen ∧ full.cfg.capacity ≤ 4 := by decide
/-- Two bytes are one too many for `narrow`; one is not. -/
theorem witness_CountBeyondItsWidthIsRefused : narrow.Ready ∧ narrow.cfg.countWidth = some 3 ∧ narrow.count < 2 ^ 3 ∧
    2 ^ 3 ≤ narrow.count + [(9 : Byte), 9].length ∧ ¬2 ^ 3 ≤ narrow.count + [(9 : Byte)].length ∧
    exec (.write [9, 9]) narrow = .refused (.countWidth 3) := ⟨by decide, rfl, by decide, by decide, by decide, rfl⟩
theorem witness_CountWidthIsNotSeen : step narrow = .next (stepped narrow) ∧ exec (.write [9]) narrow = .next (after (.write [9]) narrow) ∧
    narrow.Ready ∧ exec (.poll [9, 9]) narrow = .refused (.countWidth 3) := ⟨rfl, rfl, by decide, rfl⟩

end Sys2Proof.Tests
end

section
/-! SUPPORT. What the command decoder reads, said once (30_encoding R79 to R86): an item at the front of the bytes, sound for a core of
frame length `L`, and exactly the bytes of that item taken. -/

namespace Sys2Proof.Machine

variable {L : Nat} {bytes rest : List Byte} {item : PortItem}

/-- The opcode byte `b` is reserved: none of the seven of R81 (R86). -/
def IsReserved (b : Byte) : Prop := b.toNat = 0 ∨ 8 ≤ b.toNat

/-- What an item of the decoder must be (R84): a command that a packet can carry, or a reserved opcode byte. -/
def ItemSound (L : Nat) : PortItem → Prop
  | .command i => i.wellFormed L = true
  | .illegal b => IsReserved b

/-! One equation per row of the opcode map (R81). -/

theorem decode_nil : decode L [] = none := rfl
theorem decode_opcode_write : decode L (0x01 :: rest) = decodeChunk .write rest := rfl
theorem decode_opcode_read : decode L (0x02 :: rest) = some (.command .read, rest) := rfl
theorem decode_opcode_util : decode L (0x03 :: rest) = some (.command .util, rest) := rfl
theorem decode_opcode_frame : decode L (0x04 :: rest) = some (.command .frame, rest) := rfl
theorem decode_opcode_valid : decode L (0x05 :: rest) = decodeFrameOperand .valid L rest := rfl
theorem decode_opcode_decode : decode L (0x06 :: rest) = decodeFrameOperand .decode L rest := rfl
theorem decode_opcode_poll : decode L (0x07 :: rest) = decodeChunk .poll rest := rfl

/-- Every byte is one of the seven opcodes or reserved (R81, R86). -/
theorem opcode_cases (op : Byte) :
    op = 0x01 ∨ op = 0x02 ∨ op = 0x03 ∨ op = 0x04 ∨ op = 0x05 ∨ op = 0x06 ∨ op = 0x07 ∨ IsReserved op := by
  unfold IsReserved
  bv_omega

/-- The decoder reads only sound items, and the bytes it takes are those of the item. -/
theorem sound_of_decode (h : decode L bytes = some (item, rest)) : ItemSound L item ∧ bytes = portBytes item ++ rest := by
  cases bytes with
  | nil => cases h
  | cons op tail =>
    rcases opcode_cases op with rfl | rfl | rfl | rfl | rfl | rfl | rfl | hres
    · obtain ⟨data, rfl, hlen, rfl⟩ := decodeChunk_eq_some.mp (decode_opcode_write.symm.trans h)
      exact ⟨decide_eq_true hlen, rfl⟩
    · cases decode_opcode_read.symm.trans h
      exact ⟨rfl, rfl⟩
    · cases decode_opcode_util.symm.trans h
      exact ⟨rfl, rfl⟩
    · cases decode_opcode_frame.symm.trans h
      exact ⟨rfl, rfl⟩
    · obtain ⟨f, rfl, hlen, rfl⟩ := decodeFrameOperand_eq_some.mp (decode_opcode_valid.symm.trans h)
      exact ⟨decide_eq_true hlen, rfl⟩
    · obtain ⟨f, rfl, hlen, rfl⟩ := decodeFrameOperand_eq_some.mp (decode_opcode_decode.symm.trans h)
      exact ⟨decide_eq_true hlen, rfl⟩
    · obtain ⟨data, rfl, hlen, rfl⟩ := decodeChunk_eq_some.mp (decode_opcode_poll.symm.trans h)
      exact ⟨decide_eq_true hlen, rfl⟩
    · cases (decode_reserved tail hres).symm.trans h
      exact ⟨hres, rfl⟩

/-- The bytes of a sound item, whatever follows them, decode to that item. -/
theorem decode_portBytes_append (h : ItemSound L item) (rest : List Byte) :
    decode L (portBytes item ++ rest) = some (item, rest) := by
  match item, h with
  | .command (.write data), h =>
    exact decode_opcode_write.trans (decodeChunk_eq_some.mpr ⟨data, rfl, of_decide_eq_true h, rfl⟩)
  | .command .read, _ => exact decode_opcode_read
  | .command .util, _ => exact decode_opcode_util
  | .command .frame, _ => exact decode_opcode_frame
  | .command (.valid f), h =>
    exact decode_opcode_valid.trans (decodeFrameOperand_eq_some.mpr ⟨f, rfl, of_decide_eq_true h, rfl⟩)
  | .command (.decode f), h =>
    exact decode_opcode_decode.trans (decodeFrameOperand_eq_some.mpr ⟨f, rfl, of_decide_eq_true h, rfl⟩)
  | .command (.poll data), h =>
    exact decode_opcode_poll.trans (decodeChunk_eq_some.mpr ⟨data, rfl, of_decide_eq_true h, rfl⟩)
  | .illegal b, h => exact decode_reserved rest h

/-- What the decoder does (R79 to R86): it reads an item just when a sound one stands at the front, and takes exactly its bytes. -/
theorem decode_eq_some_iff : decode L bytes = some (item, rest) ↔ ItemSound L item ∧ bytes = portBytes item ++ rest := by
  constructor
  · exact sound_of_decode
  · rintro ⟨hsound, rfl⟩
    exact decode_portBytes_append hsound rest

/-- Every item takes at least its opcode byte. -/
theorem portBytes_length_pos (item : PortItem) : 0 < (portBytes item).length := by
  match item with
  | .command i => cases i <;> exact Nat.succ_pos _
  | .illegal b => exact Nat.one_pos

end Sys2Proof.Machine
end

section
/-! SUPPORT. The decoder over a whole byte string (30_encoding R84): the items it lists are the bytes in order, and a list of sound items is
what their bytes decode to. -/

namespace Sys2Proof.Machine

variable {L fuel : Nat} {bytes rest : List Byte} {item : PortItem}

theorem decodeItems_of_none (h : decode L bytes = none) : decodeItems L fuel bytes = ([], bytes) := by
  cases fuel with
  | zero => rfl
  | succ fuel => simp [decodeItems, h]

theorem decodeItems_of_some (h : decode L bytes = some (item, rest)) :
    decodeItems L (fuel + 1) bytes = (item :: (decodeItems L fuel rest).1, (decodeItems L fuel rest).2) := by
  simp [decodeItems, h]

/-- `found` is the whole of `bytes` as R84 has it: sound items in order, and behind them no complete item. -/
structure ItemsOf (L : Nat) (bytes : List Byte) (found : List PortItem × List Byte) : Prop where
  inOrder : found.1.flatMap portBytes ++ found.2 = bytes
  incomplete : decode L found.2 = none
  sound : ∀ item ∈ found.1, ItemSound L item

theorem ItemsOf.of_none (h : decode L bytes = none) : ItemsOf L bytes ([], bytes) where
  inOrder := rfl
  incomplete := h
  sound := by simp

theorem ItemsOf.cons {found : List PortItem × List Byte} (hitem : ItemSound L item) (h : ItemsOf L rest found) :
    ItemsOf L (portBytes item ++ rest) (item :: found.1, found.2) where
  inOrder := by simp [← h.inOrder]
  incomplete := h.incomplete
  sound := List.forall_mem_cons.mpr ⟨hitem, h.sound⟩

/-- Fuel for every byte is fuel enough to read the whole string, since each item takes a byte. -/
theorem decodeItems_itemsOf (hfuel : bytes.length ≤ fuel) : ItemsOf L bytes (decodeItems L fuel bytes) := by
  induction fuel generalizing bytes with
  | zero =>
    obtain rfl : bytes = [] := List.eq_nil_of_length_eq_zero (by omega)
    exact .of_none decode_nil
  | succ fuel ih =>
    rcases h : decode L bytes with _ | ⟨item, rest⟩
    · rw [decodeItems_of_none h]
      exact .of_none h
    · rw [decodeItems_of_some h]
      obtain ⟨hsound, rfl⟩ := sound_of_decode h
      have hpos := portBytes_length_pos item
      rw [List.length_append] at hfuel
      exact .cons hsound (ih (by omega))

/-- With fuel for every byte, the bytes of sound items decode to those items and leave the incomplete packet behind them. -/
theorem decodeItems_flatMap_portBytes {items : List PortItem} (hsound : ∀ item ∈ items, ItemSound L item)
    (hrest : decode L rest = none) (hfuel : (items.flatMap portBytes ++ rest).length ≤ fuel) :
    decodeItems L fuel (items.flatMap portBytes ++ rest) = (items, rest) := by
  induction items generalizing fuel with
  | nil => exact decodeItems_of_none hrest
  | cons item items ih =>
    obtain ⟨hitem, hitems⟩ := List.forall_mem_cons.mp hsound
    have hpos := portBytes_length_pos item
    rw [List.flatMap_cons, List.append_assoc, List.length_append] at hfuel
    obtain ⟨fuel, rfl⟩ : ∃ n, fuel = n + 1 := ⟨fuel - 1, by omega⟩
    rw [List.flatMap_cons, List.append_assoc, decodeItems_of_some (decode_portBytes_append hitem _),
      ih hitems (by omega)]

/-- The port bytes of a listing are the bytes of its commands as items. -/
theorem flatMap_portBytes_command (commands : List Instr) : (commands.map .command).flatMap portBytes = assemble commands := by
  rw [List.flatMap_map]
  rfl

/-- Settles O5: the decoded items are sound and are the bytes in order, and sound items decode to themselves. -/
theorem streamDecodesToItems : Obligations.StreamDecodesToItems := by
  unfold Obligations.StreamDecodesToItems
  constructor
  · intro L bytes
    obtain ⟨horder, hrest, hsound⟩ := decodeItems_itemsOf (L := L) (Nat.le_refl bytes.length)
    exact ⟨horder, hrest, fun i hi => hsound _ hi, fun b hb => hsound _ hb⟩
  · intro L commands rest hwf hrest
    have hsound : ∀ item ∈ commands.map PortItem.command, ItemSound L item := List.forall_mem_map.mpr hwf
    rw [← flatMap_portBytes_command]
    exact decodeItems_flatMap_portBytes hsound hrest (Nat.le_refl _)

end Sys2Proof.Machine
end

section
/-! SUPPORT. A reserved opcode at the front of the port (30_encoding R86). -/

namespace Sys2Proof.Machine

variable {s : State} {b : Byte} {rest : List Byte}

/-- A step on a reserved opcode consumes its byte and raises the fault IllegalCommand, and does nothing else (R86). -/
theorem step_of_illegal (hl : s.cfg.Legal) (h : decode s.cfg.frameLen s.port = some (.illegal b, rest)) :
    step s = .next (((s.withPort rest).setFault illBit).respond (.fault (.illegalCommand b))) :=
  step_eq_next.mpr ⟨hl, .inr (.inr ⟨b, rest, h, rfl⟩)⟩

/-- Settles O6, by the one step on a reserved opcode. -/
theorem reservedOpcodeIsRejected : Obligations.ReservedOpcodeIsRejected := by
  unfold Obligations.ReservedOpcodeIsRejected
  intro s b rest hl hport hres
  exact step_of_illegal hl (hport ▸ decode_reserved rest hres)

end Sys2Proof.Machine
end

section
/-! SUPPORT. VALID's verdict against the chain positions (42_frame_validator R130 to R132): accepted frames have no ill-formed chain position,
and a walk that rejects has found one. -/

namespace Sys2Proof.Machine

variable {f : List Byte} {n cur p : Nat}

/-- `p` is a chain position at which R76 rejects: outside the frame, or a zero byte below the last index. -/
def IsBadPosition (f : List Byte) (p : Nat) : Prop := f.length ≤ p ∨ p < f.length - 1 ∧ f[p]? = some 0

/-- VALID's two tests: the last byte, then the walk from the first byte's value (R130). -/
theorem validFrame_iff : validFrame f = true ↔
    f[f.length - 1]? = some 0 ∧ ∃ first, f[0]? = some first ∧ chainWalk f f.length first.toNat = true := by
  cases f with
  | nil => simp [validFrame]
  | cons first rest => simp [validFrame, List.getLast?_eq_getElem?]

/-- A walk that accepts stands on no bad position. -/
theorem not_isBadPosition_of_chainWalk (h : chainWalk f n p = true) : ¬IsBadPosition f p := by
  have hp : p ≠ 0 := by rintro rfl; simp [chainWalk_at_zero] at h
  rintro (hout | ⟨hlt, hz⟩)
  · simp [chainWalk_outside hout] at h
  · cases n with
    | zero => simp [chainWalk] at h
    | succ n =>
      rw [chainWalk_end hp hz, decide_eq_true_eq] at h
      omega

/-- The walk of an accepted frame passes every chain position and accepts from each. -/
theorem chainWalk_of_onChain (h : validFrame f = true) (hp : OnChain f p) : ∃ n, chainWalk f n p = true := by
  induction hp with
  | first hb =>
    obtain ⟨_, first, hfirst, hwalk⟩ := validFrame_iff.mp h
    obtain rfl : _ = first := Option.some.inj (hb.symm.trans hfirst)
    exact ⟨f.length, hwalk⟩
  | jump _ hpos hb hnz ih =>
    obtain ⟨n, hwalk⟩ := ih
    cases n with
    | zero => simp [chainWalk] at hwalk
    | succ n => exact ⟨n, (chainWalk_jump (by omega) hb hnz).symm.trans hwalk⟩

/-- A walk with fuel for the rest of the frame rejects only by a bad position of the chain (R76). -/
theorem exists_isBadPosition_of_chainWalk (hon : OnChain f cur) (hcur : 1 ≤ cur) (hfuel : f.length ≤ cur + n)
    (h : chainWalk f n cur = false) : ∃ p, OnChain f p ∧ IsBadPosition f p := by
  induction n generalizing cur with
  | zero => exact ⟨cur, hon, .inl hfuel⟩
  | succ n ih =>
    rcases hb : f[cur]? with _ | b
    · exact ⟨cur, hon, .inl (List.getElem?_eq_none_iff.mp hb)⟩
    · have hlt : cur < f.length := (List.getElem?_eq_some_iff.mp hb).1
      by_cases hz : b = 0
      · subst hz
        rw [chainWalk_end (by omega) hb, decide_eq_false_iff_not] at h
        exact ⟨cur, hon, .inr ⟨by omega, hb⟩⟩
      · have hadv := toNat_pos hz
        rw [chainWalk_jump (by omega) hb hz] at h
        exact ih (hon.jump hcur hb hz) (by omega) (by omega) h

/-- The four cases of R76, over the frame alone. -/
theorem validFrame_eq_false_iff (hpos : 0 < f.length) : validFrame f = false ↔
    f[f.length - 1]? ≠ some 0 ∨ f[0]? = some 0 ∨ ∃ p, OnChain f p ∧ IsBadPosition f p := by
  constructor
  · intro h
    by_cases hlast : f[f.length - 1]? = some 0
    · have hfirst : f[0]? = some f[0] := List.getElem?_eq_getElem hpos
      by_cases hzero : f[0] = 0
      · exact .inr (.inl (hzero ▸ hfirst))
      · have hwalk : chainWalk f f.length f[0].toNat = false := by
          rw [← Bool.not_eq_true]
          intro hw
          rw [validFrame_iff.mpr ⟨hlast, _, hfirst, hw⟩] at h
          cases h
        exact .inr (.inr (exists_isBadPosition_of_chainWalk (.first hfirst) (toNat_pos hzero) (by omega) hwalk))
    · exact .inl hlast
  · intro hcases
    rw [← Bool.not_eq_true]
    intro h
    obtain ⟨hlast, first, hfirst, hwalk⟩ := validFrame_iff.mp h
    rcases hcases with hne | hzero | ⟨p, hp, hbad⟩
    · exact hne hlast
    · obtain rfl : first = 0 := Option.some.inj (hfirst.symm.trans hzero)
      simp [chainWalk_at_zero] at hwalk
    · obtain ⟨n, hn⟩ := chainWalk_of_onChain h hp
      exact not_isBadPosition_of_chainWalk hn hbad

/-- VALID answers every operand of `L` bytes with its verdict and changes nothing else (R130). -/
theorem execValid_of_length {s : State} (hl : s.cfg.Legal) (hlen : f.length = s.cfg.frameLen) :
    exec (.valid f) s = .next (s.respond (.bool (validFrame f))) :=
  configured_eq_next.mpr ⟨hl, frameOperand_eq_next.mpr ⟨hlen, rfl⟩⟩

theorem respond_eq_withResponses_iff {s : State} {v w : Response} :
    s.respond v = s.withResponses (s.responses ++ [w]) ↔ v = w := by
  constructor
  · intro h
    simpa using congrArg State.responses h
  · rintro rfl
    rfl

/-- Settles O28, by the four cases over the frame alone: a rejecting walk ends on a bad position, an accepting one passes none. -/
theorem illFormedFrameCases : Obligations.IllFormedFrameCases := by
  unfold Obligations.IllFormedFrameCases
  intro s f hl hlen
  have hpos : 0 < f.length := by obtain ⟨_, hL, _⟩ := hl; omega
  rw [execValid_of_length hl hlen, Host.Outcome.next.injEq, respond_eq_withResponses_iff, Response.bool.injEq,
    validFrame_eq_false_iff hpos, ← hlen]
  simp only [IsBadPosition, and_or_left, exists_or]

end Sys2Proof.Machine
end

section
/-! SUPPORT. The responses of 30_encoding R90: what FRAME's extraction and DECODE can hand to a response. -/

namespace Sys2Proof.Machine

variable {s t : State} {f : List Byte}

/-- An extraction gives no response, and what it hands on as a frame has `L` bytes. -/
theorem extractFrame_response {r : Option (List Byte)} (hL : 2 ≤ s.cfg.frameLen) (h : extractFrame s = .next (r, t)) :
    t.responses = s.responses ∧ (r = none ∨ ∃ f, f.length = s.cfg.frameLen ∧ r = some f) := by
  rcases extractFrame_next hL h with ⟨hr, rfl⟩ | ⟨_, m, _, rfl, hr⟩
  · exact ⟨rfl, .inl hr⟩
  · refine ⟨rfl, hr.imp_right ?_⟩
    rintro ⟨rfl, rfl⟩
    exact ⟨_, ahead_length _, rfl⟩

/-- DECODE gives a record of `L - 2` bytes or the raw frame (R140, R144). -/
theorem decodeResponse_cases {c : Config} (hlen : f.length = c.frameLen) :
    (∃ out, out.length = c.payloadLen ∧ decodeResponse f = .record out) ∨ decodeResponse f = .malformed f := by
  unfold decodeResponse
  split
  · exact .inl ⟨unstuff f, by rw [unstuff_length, hlen, Config.payloadLen], rfl⟩
  · exact .inr rfl

/-- Every command that answers gives one response, of the kind R90 names. -/
theorem exec_response (i : Instr) (hs : s.Ready) (h : exec i s = .next t) :
    ∃ r, t.responses = s.responses ++ [r] ∧ responseAllowed s t i r := by
  cases i with
  | write data =>
    obtain ⟨_, _, rfl⟩ := execWrite_next h
    exact ⟨_, by simp, rfl, by simpa using stored_wr_lt hs.2.2 data⟩
  | read =>
    obtain ⟨_, ⟨_, rfl⟩ | ⟨_, _, rfl⟩⟩ := execRead_next h
    · exact ⟨_, rfl, .inr rfl⟩
    · exact ⟨_, rfl, .inl ⟨_, rfl⟩⟩
  | util =>
    obtain ⟨_, rfl⟩ := execUtil_next h
    exact ⟨_, rfl, rfl⟩
  | frame =>
    obtain ⟨⟨_, hL, _⟩, r, u, hu, rfl⟩ := execFrame_next h
    obtain ⟨hresp, hr⟩ := extractFrame_response hL hu
    refine ⟨_, by rw [State.respond_responses, hresp], ?_⟩
    rcases hr with rfl | ⟨f, hf, rfl⟩
    · exact .inl rfl
    · exact .inr ⟨f, hf, rfl⟩
  | valid f =>
    obtain ⟨_, _, rfl⟩ := execValid_next h
    exact ⟨_, rfl, _, rfl⟩
  | decode f =>
    obtain ⟨_, hlen, rfl⟩ := execDecode_next h
    exact ⟨_, rfl, (decodeResponse_cases hlen).imp_right fun hraw => ⟨hraw, hlen⟩⟩
  | poll data =>
    obtain ⟨⟨_, hL, _⟩, _, r, u, hu, rfl⟩ := execPoll_next h
    obtain ⟨hresp, hr⟩ := extractFrame_response (by simpa using hL) hu
    refine ⟨_, by rw [State.respond_responses, hresp, stored_responses], ?_⟩
    rw [stored_cfg] at hr
    rcases hr with rfl | ⟨f, hf, rfl⟩
    · exact .inl rfl
    · exact .inr ((decodeResponse_cases hf).imp_right fun hraw => ⟨f, hf, hraw⟩)

/-- Settles O44, by cases on the command, and by the one step on a reserved opcode. -/
theorem oneTypedResponsePerCommand : Obligations.OneTypedResponsePerCommand := by
  unfold Obligations.OneTypedResponsePerCommand
  exact ⟨fun i _ _ hs h => exec_response i hs h, fun _ _ _ hl h => ⟨_, step_of_illegal hl h, rfl⟩⟩

end Sys2Proof.Machine
end

section
/-! SUPPORT. WRITE (41_buffer_ops R110, R111): what storing a chunk does to each bit of FAULT. -/

namespace Sys2Proof.Machine

variable {s : State}

/-- Storing a chunk sets OVF just when its last byte is stored at `count >= C` (R111). -/
theorem stored_ovf (data : List Byte) : (s.stored data).ovf = true ↔
    s.ovf = true ∨ data ≠ [] ∧ s.cfg.capacity < s.count + data.length := by
  unfold State.ovf
  rw [stored_faultReg]
  split
  · simp [ovfBit, *]
  · simp only [*, or_false]

theorem stored_udf (data : List Byte) : (s.stored data).udf = s.udf := by
  unfold State.udf
  rw [stored_faultReg]
  split
  · simp [ovfBit]
  · rfl

theorem stored_ill (data : List Byte) : (s.stored data).ill = s.ill := by
  unfold State.ill
  rw [stored_faultReg]
  split
  · simp [ovfBit]
  · rfl

/-- Settles O15: WRITE leaves `State.stored`, and the laws of `State.stored` give its effect and its frame. -/
theorem writeStoresChunk : Obligations.WriteStoresChunk := by
  unfold Obligations.WriteStoresChunk
  intro s data hs hroom
  have ⟨_, _, hwr⟩ := hs
  exact ⟨_, execWrite_of_ready hs data hroom, stored_wr hwr data, stored_count data,
    congrArg (· ++ _) (stored_responses data), fun _ hk hlast => stored_read_at hwr data hk hlast, stored_ovf data,
    stored_udf data, stored_ill data, stored_rd data, stored_cfg data, stored_port data,
    fun _ ha => stored_read_other hwr data ha⟩

end Sys2Proof.Machine
end

section
/-! SUPPORT. Which of its outcomes FRAME has (41_buffer_ops R115), told from the bytes ahead of the read cursor. -/

namespace Sys2Proof.Machine

variable {s : State} {j : Nat}

/-- With fewer than `L` bytes buffered nothing is read. -/
theorem extractFrame_of_short (hc : s.count < s.cfg.frameLen) : extractFrame s = .next (none, s) := if_pos hc

/-- The bytes up to the first zero are consumed, and they are a frame just when that zero is the `L`-th byte. -/
theorem extractFrame_of_firstZero (hs : s.Ready) (hc : s.cfg.frameLen ≤ s.count) (hj : j < s.cfg.frameLen)
    (hz : s.aheadByte j = 0) (hnz : ∀ k < j, s.aheadByte k ≠ 0) :
    extractFrame s = .next (if j + 1 = s.cfg.frameLen then some (s.ahead (j + 1)) else none, s.consumed (j + 1)) := by
  obtain ⟨⟨_, hL, _⟩, hrd, _⟩ := hs
  rcases extractFrame_spec hrd hL with ⟨hlt, _⟩ | ⟨_, m, hpos, _, hbefore, hcases⟩
  · omega
  have hle : m ≤ j + 1 := by
    by_contra hgt
    exact hbefore j (by omega) hz
  have hge (hzm : s.aheadByte (m - 1) = 0) : j + 1 ≤ m := by
    by_contra hlt
    exact hnz (m - 1) (by omega) hzm
  rcases hcases with ⟨hm, hzm, he⟩ | ⟨hm, hzm, _⟩ | ⟨hm, hzm, he⟩
  · obtain rfl : m = j + 1 := Nat.le_antisymm hle (hge hzm)
    rw [he, if_neg (by omega)]
  · exact absurd (show s.aheadByte (m - 1) = 0 by rwa [show m - 1 = j by omega]) hzm
  · obtain rfl : m = j + 1 := Nat.le_antisymm hle (hge hzm)
    rw [he, if_pos hm]

/-- Without a zero among the next `L` bytes the whole budget is consumed for nothing. -/
theorem extractFrame_of_no_zero (hs : s.Ready) (hc : s.cfg.frameLen ≤ s.count)
    (hnz : ∀ k < s.cfg.frameLen, s.aheadByte k ≠ 0) :
    extractFrame s = .next (none, s.consumed s.cfg.frameLen) := by
  obtain ⟨⟨_, hL, _⟩, hrd, _⟩ := hs
  rcases extractFrame_spec hrd hL with ⟨hlt, _⟩ | ⟨_, m, hpos, hm, _, ⟨_, hz, _⟩ | ⟨rfl, _, he⟩ | ⟨_, hz, _⟩⟩
  · omega
  · exact absurd hz (hnz _ (by omega))
  · exact he
  · exact absurd hz (hnz _ (by omega))

/-- Settles O23, by what the extraction does in each case. -/
theorem frameOutcomes : Obligations.FrameOutcomes := by
  unfold Obligations.FrameOutcomes
  intro s hs
  have ⟨hl, _, _⟩ := hs
  refine ⟨fun hc => execFrame_of_extract hl (extractFrame_of_short hc), fun hc => ⟨?early, ?none, ?frame⟩⟩
  case early =>
    intro j hj hz hnz
    have he := extractFrame_of_firstZero hs hc (by omega) hz hnz
    rw [if_neg (by omega)] at he
    exact execFrame_of_extract hl he
  case none =>
    intro hnz
    exact execFrame_of_extract hl (extractFrame_of_no_zero hs hc hnz)
  case frame =>
    intro hz hnz
    have hlast : s.cfg.frameLen - 1 + 1 = s.cfg.frameLen := by obtain ⟨_, hL, _⟩ := hl; omega
    have he := extractFrame_of_firstZero hs hc (by omega) hz hnz
    rw [hlast, if_pos rfl] at he
    exact execFrame_of_extract hl he

end Sys2Proof.Machine
end

section
/-! SUPPORT. READ and UTIL (41_buffer_ops R112 to R114): what each answers, from every state that is ready for it. -/

namespace Sys2Proof.Machine

variable {s : State}

/-- READ of an empty buffer raises Underflow (R112). -/
theorem execRead_of_empty (hl : s.cfg.Legal) (h0 : s.count = 0) :
    exec .read s = .next ((s.setFault udfBit).respond (.fault .underflow)) :=
  configured_eq_next.mpr ⟨hl, if_pos h0⟩

/-- READ of a buffer that holds a byte consumes one and responds with it (R113). -/
theorem execRead_of_nonempty (hs : s.Ready) (h0 : s.count ≠ 0) :
    exec .read s = .next ((s.consumed 1).respond (.byte (s.byteAt s.rd))) := by
  obtain ⟨hl, hrd, _⟩ := hs
  refine configured_eq_next.mpr ⟨hl, ?_⟩
  rw [if_neg h0, read1_eq_next.mpr ⟨hrd, rfl, rfl⟩, andThen_next]

theorem execUtil_of_legal (hl : s.cfg.Legal) :
    exec .util s = .next (s.respond (.util s.count s.cfg.capacity s.faultReg)) :=
  configured_eq_next.mpr ⟨hl, rfl⟩

/-- Consuming one byte writes a zero to the slot at the read cursor and touches no other. -/
theorem consumed_one_storage : (s.consumed 1).storage = s.storage.write s.rd 0 := rfl

/-- Settles O19, by whether the buffer is empty. -/
theorem readTakesOneByte : Obligations.ReadTakesOneByte := by
  unfold Obligations.ReadTakesOneByte
  intro s hs
  constructor
  · intro h0
    exact execRead_of_empty hs.1 h0
  · intro h0
    refine ⟨_, execRead_of_nonempty hs h0, rfl, ?_⟩
    rw [State.respond_storage, consumed_one_storage]
    exact ⟨Memory.read_write_self _ _ _, fun _ ha => Memory.read_write_other _ _ ha⟩

/-- A fill level strictly between empty and full is a percentage strictly between 0 and 100 (R114). -/
theorem percent_bounds {n c : Nat} (hn : 0 < n) (hnc : n < c) :
    0 < (100 * n / c : Rat) ∧ (100 * n / c : Rat) < 100 := by
  have hn' : (0 : Rat) < n := Nat.cast_pos.mpr hn
  have hc' : (0 : Rat) < c := Nat.cast_pos.mpr (by omega)
  have hnc' : (n : Rat) < c := Nat.cast_lt.mpr hnc
  exact ⟨by positivity, (div_lt_iff₀ hc').mpr (by linarith)⟩

/-- Settles O21: UTIL only responds, and its percentage is `100 * count / C` over a `C` that is not 0. -/
theorem utilObservesFillLevel : Obligations.UtilObservesFillLevel := by
  unfold Obligations.UtilObservesFillLevel
  intro s hl
  have hC : (s.cfg.capacity : Rat) ≠ 0 := Nat.cast_ne_zero.mpr (by obtain ⟨hC, _⟩ := hl; omega)
  exact ⟨execUtil_of_legal hl, _, rfl, div_mul_cancel₀ _ hC, percent_bounds⟩

end Sys2Proof.Machine
end

section
/-! SUPPORT. VALID's verdict as the closed form of 42_frame_validator R135, and the two answers of DECODE (43_frame_decoder R140 to R144). -/

namespace Sys2Proof.Machine

variable {f : List Byte} {first : Byte} {positions : List Nat} {s : State}

/-- In a frame of two bytes or more, the pointer chains of R135 are the paths from index 0: such a path cannot be a single position. -/
theorem isPointerChain_iff_chainPath (hlen : 2 ≤ f.length) : IsPointerChain f positions ↔ ChainPath f 0 positions := by
  refine ⟨And.right, fun hpath => ⟨?_, hpath⟩⟩
  obtain ⟨hhead, hend, _⟩ := hpath
  match positions, hhead, hend with
  | [x], hhead, hend =>
    obtain rfl : x = 0 := by simpa using hhead
    have : 0 = f.length - 1 := by simpa using hend
    omega
  | _ :: _ :: _, _, _ => simp

/-- A pointer chain stands just when the first byte is a pointer and a path leads on from where it points. -/
theorem exists_isPointerChain_iff (hlen : 2 ≤ f.length) (hfirst : f[0]? = some first) :
    (∃ positions, IsPointerChain f positions) ↔ first ≠ 0 ∧ ∃ rest, ChainPath f first.toNat rest := by
  simp only [isPointerChain_iff_chainPath hlen]
  by_cases hzero : first = 0
  · subst hzero
    simp [not_chainPath_of_zero hfirst (by omega)]
  · rw [and_iff_right hzero]
    simp [chainPath_jump hfirst hzero (by omega)]

/-- R135: the verdict of VALID is the closed form, a zero last byte and a pointer chain. -/
theorem validFrame_iff_isPointerChain (hlen : 2 ≤ f.length) : validFrame f = true ↔
    f[f.length - 1]? = some 0 ∧ ∃ positions, IsPointerChain f positions := by
  obtain ⟨first, hfirst⟩ : ∃ b, f[0]? = some b := ⟨_, List.getElem?_eq_getElem (by omega)⟩
  rw [validFrame_iff, exists_isPointerChain_iff hlen hfirst]
  refine and_congr_right fun hlast => ?_
  simp only [hfirst, Option.some.injEq, exists_eq_left']
  by_cases hzero : first = 0
  · simp [hzero, chainWalk_at_zero]
  · have hpos := toNat_pos hzero
    rw [chainWalk_iff_path hlast (by omega) (by omega), and_iff_right hzero]

/-- DECODE answers every operand of `L` bytes with its response and changes nothing else (R140). -/
theorem execDecode_of_length (hl : s.cfg.Legal) (hlen : f.length = s.cfg.frameLen) :
    exec (.decode f) s = .next (s.respond (decodeResponse f)) :=
  configured_eq_next.mpr ⟨hl, frameOperand_eq_next.mpr ⟨hlen, rfl⟩⟩

theorem decodeResponse_of_valid (h : validFrame f = true) : decodeResponse f = .record (unstuff f) := if_pos h

theorem decodeResponse_of_invalid (h : ¬validFrame f = true) : decodeResponse f = .malformed f := if_neg h

/-- Settles O31: a frame outside the closed form is one VALID rejects, and DECODE hands those back raw. -/
theorem decodeRefusesInvalidFrame : Obligations.DecodeRefusesInvalidFrame := by
  unfold Obligations.DecodeRefusesInvalidFrame
  intro s f hl hlen hnot
  have ⟨_, hL, _⟩ := hl
  rw [← hlen, ← validFrame_iff_isPointerChain (by omega)] at hnot
  rw [execDecode_of_length hl hlen, decodeResponse_of_invalid hnot]
  rfl

/-! The single-pointer frame (R143). -/

/-- The positions that `unstuff` zeroes are those visited from where the first byte points. -/
theorem unstuff_of_first (hfirst : f[0]? = some first) :
    unstuff f = zeroAt (frameInterior f) (visitedFrom f f.length first.toNat) := by
  cases f with
  | nil => cases hfirst
  | cons b rest =>
    obtain rfl : b = first := Option.some.inj hfirst
    rfl

/-- A first byte that points at a zero terminator makes the frame valid: the terminator alone is the path. -/
theorem validFrame_of_first_to_last (hlen : 2 ≤ f.length) (hfirst : f[0]? = some first)
    (hptr : first.toNat = f.length - 1) (hlast : f[f.length - 1]? = some 0) : validFrame f = true := by
  have hwalk : chainWalk f f.length first.toNat = true := by
    rw [hptr]
    exact (chainWalk_iff_path hlast (by omega) (by omega)).mpr ⟨_, chainPath_singleton⟩
  exact validFrame_iff.mpr ⟨hlast, first, hfirst, hwalk⟩

/-- A first byte that points at a zero byte leaves the interior as it is: the walk visits nothing more. -/
theorem unstuff_of_first_to_zero (hfirst : f[0]? = some first) (hzero : f[first.toNat]? = some 0) :
    unstuff f = frameInterior f := by
  rw [unstuff_of_first hfirst, visitedFrom_end hzero]
  rfl

/-- Settles O32: the chain goes from index 0 straight to the terminator, so the frame is valid and nothing is zeroed. -/
theorem singlePointerFrameIsCopied : Obligations.SinglePointerFrameIsCopied := by
  unfold Obligations.SinglePointerFrameIsCopied
  intro s f first hl hlen hfirst hptr hlast
  have ⟨_, hL, _⟩ := hl
  rw [← hlen] at hptr hlast hL ⊢
  have hvalid := validFrame_of_first_to_last hL hfirst hptr hlast
  rw [execDecode_of_length hl hlen, decodeResponse_of_valid hvalid, unstuff_of_first_to_zero hfirst (hptr ▸ hlast)]
  rfl

end Sys2Proof.Machine
end

section
/-! SUPPORT. The pipeline (44_pipeline R150): an extraction does not see the responses given before it, so the one inside POLL is the one FRAME
makes behind WRITE. -/

namespace Sys2Proof.Machine

variable {s t : State}

theorem read1_withResponses {b : Byte} (q : List Response) (h : read1 s = .next (b, t)) :
    read1 (s.withResponses q) = .next (b, t.withResponses q) := by
  obtain ⟨hrd, rfl, rfl⟩ := read1_eq_next.mp h
  exact read1_eq_next.mpr ⟨hrd, rfl, rfl⟩

theorem readToZero_withResponses {budget : Nat} {got out : List Byte} (q : List Response)
    (h : readToZero budget got s = .next (out, t)) :
    readToZero budget got (s.withResponses q) = .next (out, t.withResponses q) := by
  induction budget generalizing got s with
  | zero => cases h; rfl
  | succ budget ih =>
    obtain ⟨⟨b, u⟩, hread, h⟩ := andThen_eq_next.mp h
    rw [readToZero, read1_withResponses q hread, andThen_next]
    split at h
    next hzero => cases h; exact if_pos hzero
    next hzero => rw [if_neg hzero]; exact ih h

/-- An extraction does the same whatever the responses are, and leaves them alone. -/
theorem extractFrame_withResponses {r : Option (List Byte)} (q : List Response) (h : extractFrame s = .next (r, t)) :
    extractFrame (s.withResponses q) = .next (r, t.withResponses q) := by
  unfold extractFrame at h ⊢
  split at h
  next hshort => cases h; exact if_pos hshort
  next henough =>
    obtain ⟨⟨out, u⟩, hread, h⟩ := andThen_eq_next.mp h
    rw [State.withResponses_count, State.withResponses_cfg, if_neg henough, readToZero_withResponses q hread, andThen_next]
    split at h
    next hframe => cases h; exact if_pos hframe
    next hframe => cases h; exact if_neg hframe

theorem extractFrame_cfg {r : Option (List Byte)} (hL : 2 ≤ s.cfg.frameLen) (h : extractFrame s = .next (r, t)) : t.cfg = s.cfg := by
  rcases extractFrame_next hL h with ⟨_, rfl⟩ | ⟨_, m, _, rfl, _⟩ <;> rfl

/-- FRAME behind one more response, such as the one WRITE gives, makes the same extraction. -/
theorem execFrame_of_respond {v : Response} {r : Option (List Byte)} (hl : s.cfg.Legal) (h : extractFrame s = .next (r, t)) :
    exec .frame (s.respond v) = .next (t.withResponses (s.responses ++ [v, frameResponse r])) := by
  have hextract : extractFrame (s.respond v) = .next (r, t.withResponses (s.responses ++ [v])) := extractFrame_withResponses _ h
  rw [execFrame_of_extract (s := s.respond v) hl hextract]
  simp [State.respond, State.withResponses]

/-- Settles O36, by the one extraction that POLL and FRAME share: POLL decodes what it hands on, as DECODE decodes FRAME's answer. -/
theorem pollIsWriteFrameDecode : Obligations.PollIsWriteFrameDecode := by
  unfold Obligations.PollIsWriteFrameDecode
  intro s data hs hroom
  have hready := ready_stored hs data
  have ⟨hl, _, _⟩ := hready
  obtain ⟨r, t, ht⟩ := extractFrame_of_ready hready
  obtain ⟨hresp, hr⟩ := extractFrame_response hl.2.1 ht
  have hcfg := extractFrame_cfg hl.2.1 ht
  have hpoll : exec (.poll data) s = .next (t.withResponses (s.responses ++ [pollResponse r])) := by
    rw [execPoll_of_extract hs hroom ht, State.respond, hresp, stored_responses]
    rfl
  have hframe := execFrame_of_respond (v := .pos (s.stored data).wr) hl ht
  rw [stored_responses] at hframe
  refine ⟨_, _, _, _, execWrite_of_ready hs data hroom, hframe, rfl, ?_⟩
  rcases hr with rfl | ⟨f, hlen, rfl⟩
  · exact .inl ⟨rfl, hpoll⟩
  · rw [← hcfg] at hl hlen
    exact .inr ⟨f, _, _, rfl, execDecode_of_length hl hlen, by simp [pollResponse], hpoll⟩

end Sys2Proof.Machine
end

section
/-! SUPPORT. Reset (70_reset_and_hazards R190): a later reset is the first reset of a core with the same `C` and `L`. -/

namespace Sys2Proof.Machine

theorem State.restart_eq_resetWith (s : State) : s.restart = State.resetWith s.cfg := rfl

/-- The values of R35, and the configuration that reset was given. -/
theorem State.resetWith_registers (c : Config) : (State.resetWith c).rd = 0 ∧ (State.resetWith c).wr = 0 ∧
    (State.resetWith c).count = 0 ∧ (State.resetWith c).faultReg = 0 ∧ (State.resetWith c).cfg = c :=
  ⟨resetWith_rd c, resetWith_wr c, resetWith_count c, resetWith_faultReg c, resetWith_cfg c⟩

/-- Settles O9: a later reset of `s` is a first one at the configuration of `s`, so one set of values serves both. -/
theorem resetValues : Obligations.ResetValues := by
  unfold Obligations.ResetValues
  refine ⟨State.resetWith_registers, fun s => ?_⟩
  rw [State.restart_eq_resetWith]
  exact State.resetWith_registers s.cfg

end Sys2Proof.Machine
end

section
/-! SUPPORT. The command port (30_encoding R78 to R84): the packet of a command and the command it decodes to, and the step on a complete
packet and on part of one. -/

namespace Sys2Proof.Machine

variable {L k : Nat} {i : Instr} {item : PortItem} {bytes rest : List Byte} {s : State}

/-- Bytes behind a complete item stay behind it. -/
theorem decode_append (h : decode L bytes = some (item, rest)) (more : List Byte) :
    decode L (bytes ++ more) = some (item, rest ++ more) := by
  obtain ⟨hsound, rfl⟩ := sound_of_decode h
  rw [List.append_assoc]
  exact decode_portBytes_append hsound _

/-- Settles O2: a well-formed command is a sound item, and its packet is the bytes of that item. -/
theorem decodeEncodeRoundTrip : Obligations.DecodeEncodeRoundTrip := by
  unfold Obligations.DecodeEncodeRoundTrip
  intro L i rest hwf
  exact decode_portBytes_append (item := .command i) hwf rest

/-- Settles O3: what the decoder reads as a command is a sound item. -/
theorem decodedCommandIsItsPacket : Obligations.DecodedCommandIsItsPacket := by
  unfold Obligations.DecodedCommandIsItsPacket
  intro L i bytes rest h
  exact sound_of_decode h

/-- Settles O4: the bytes taken are those of the item, whatever follows them. -/
theorem laterBytesKeepDecoding : Obligations.LaterBytesKeepDecoding := by
  unfold Obligations.LaterBytesKeepDecoding
  intro L item bytes rest more h
  exact decode_append h more

/-- A part of a packet decodes to nothing: an item in it would be there in the whole packet too, and would leave bytes of it over. -/
theorem decode_take_encode (hwf : i.wellFormed L = true) (hk : k < (encode i).length) :
    decode L ((encode i).take k) = none := by
  rcases h : decode L ((encode i).take k) with _ | ⟨item, rest⟩
  · rfl
  · have hwhole := decode_append h ((encode i).drop k)
    have hpacket := decodeEncodeRoundTrip L i [] hwf
    rw [List.append_nil] at hpacket
    rw [List.take_append_drop, hpacket, Option.some.injEq, Prod.mk.injEq] at hwhole
    have hleft := congrArg List.length hwhole.2
    simp only [List.length_nil, List.length_append, List.length_drop] at hleft
    omega

/-- Where nothing complete stands at the front of the port the core waits (R83). -/
theorem step_of_incomplete (hl : s.cfg.Legal) (h : decode s.cfg.frameLen s.port = none) : step s = .next s :=
  step_eq_next.mpr ⟨hl, .inl ⟨h, rfl⟩⟩

/-- Settles O7: part of a packet decodes to nothing, and then the core waits. -/
theorem incompletePacketChangesNothing : Obligations.IncompletePacketChangesNothing := by
  unfold Obligations.IncompletePacketChangesNothing
  intro s i k hl hwf hk hport
  exact step_of_incomplete hl (hport ▸ decode_take_encode hwf hk)

/-- A step on a complete packet performs its command with the packet taken from the port (R78), whatever that command answers. -/
theorem step_of_command (hl : s.cfg.Legal) (h : decode s.cfg.frameLen s.port = some (.command i, rest)) :
    step s = exec i (s.withPort rest) := by
  rw [step, configured_of_legal hl, fetch_eq_some.mpr ⟨rest, h, rfl⟩]

/-- Settles O8, by the step on a complete packet. -/
theorem stepRunsDecodedCommand : Obligations.StepRunsDecodedCommand := by
  unfold Obligations.StepRunsDecodedCommand
  intro s i rest hl h
  exact step_of_command hl h

/-- Settles O1, by decoding each written-out packet. -/
theorem specPacketsDecode : Obligations.SpecPacketsDecode := by
  unfold Obligations.SpecPacketsDecode
  and_intros <;> decide

end Sys2Proof.Machine
end

section
/-! SUPPORT. What a command can do, said once for all seven: it stores the bytes it writes, then takes some from the front, then responds; or it
is a READ of an empty buffer. Every claim about what commands change or keep goes by these three cases. -/

namespace Sys2Proof.Machine

variable {i : Instr} {s t : State} {m : Nat} {r : Response}

/-- The commands that take bytes from the front of the buffer. -/
def IsReader (i : Instr) : Prop := i = .read ∨ i = .frame ∨ ∃ data, i = .poll data

/-- The states a command may leave. -/
inductive CommandEffect (i : Instr) (s : State) : State → Prop
  /-- READ of an empty buffer (41_buffer_ops R112). -/
  | underflow (hi : i = .read) (h0 : s.count = 0) : CommandEffect i s ((s.setFault udfBit).respond (.fault .underflow))
  /-- The bytes written are stored and none is taken. -/
  | stores (r : Response) (hroom : s.Room (bytesWritten i).length) : CommandEffect i s ((s.stored (bytesWritten i)).respond r)
  /-- The bytes written are stored and `m` bytes are taken. -/
  | takes (m : Nat) (r : Response) (hi : IsReader i) (hrd : s.rd < s.cfg.capacity) (hroom : s.Room (bytesWritten i).length)
      (hm : m ≤ s.count + (bytesWritten i).length) : CommandEffect i s (((s.stored (bytesWritten i)).consumed m).respond r)

/-- An extraction behind the bytes stored, and a response, is one of the cases. -/
theorem CommandEffect.of_extractFrame {found : Option (List Byte)} (hi : IsReader i) (hL : 2 ≤ s.cfg.frameLen)
    (hroom : s.Room (bytesWritten i).length) (h : extractFrame (s.stored (bytesWritten i)) = .next (found, t)) :
    CommandEffect i s (t.respond r) := by
  rcases extractFrame_next (by simpa using hL) h with ⟨_, rfl⟩ | ⟨hrd, m, hm, rfl, _⟩
  · exact .stores r hroom
  · exact .takes m r hi (by simpa using hrd) hroom (by simpa using hm)

/-- Whatever a command answers is one of the cases. -/
theorem exec_effect (h : exec i s = .next t) : s.cfg.Legal ∧ CommandEffect i s t := by
  cases i with
  | write data =>
    obtain ⟨hl, hroom, rfl⟩ := execWrite_next h
    exact ⟨hl, .stores _ hroom⟩
  | read =>
    obtain ⟨hl, ⟨h0, rfl⟩ | ⟨h0, hrd, rfl⟩⟩ := execRead_next h
    · exact ⟨hl, .underflow rfl h0⟩
    · exact ⟨hl, .takes 1 _ (.inl rfl) hrd (.inl rfl) (show 1 ≤ s.count by omega)⟩
  | util =>
    obtain ⟨hl, rfl⟩ := execUtil_next h
    exact ⟨hl, .stores _ (.inl rfl)⟩
  | frame =>
    obtain ⟨hl, found, u, hu, rfl⟩ := execFrame_next h
    have ⟨_, hL, _⟩ := hl
    exact ⟨hl, .of_extractFrame (.inr (.inl rfl)) hL (.inl rfl) hu⟩
  | valid f =>
    obtain ⟨hl, _, rfl⟩ := execValid_next h
    exact ⟨hl, .stores _ (.inl rfl)⟩
  | decode f =>
    obtain ⟨hl, _, rfl⟩ := execDecode_next h
    exact ⟨hl, .stores _ (.inl rfl)⟩
  | poll data =>
    obtain ⟨hl, hroom, found, u, hu, rfl⟩ := execPoll_next h
    have ⟨_, hL, _⟩ := hl
    exact ⟨hl, .of_extractFrame (.inr (.inr ⟨data, rfl⟩)) hL hroom hu⟩

/-- Only WRITE and POLL write bytes. -/
theorem writes_of_bytesWritten_ne_nil (h : bytesWritten i ≠ []) :
    i = .write (bytesWritten i) ∨ i = .poll (bytesWritten i) := by
  cases i with
  | write data => exact .inl rfl
  | poll data => exact .inr rfl
  | read | util | frame | valid | decode => exact absurd rfl h

theorem exec_cfg (h : exec i s = .next t) : t.cfg = s.cfg := by
  obtain ⟨_, heffect⟩ := exec_effect h
  cases heffect <;> simp

theorem exec_port (h : exec i s = .next t) : t.port = s.port := by
  obtain ⟨_, heffect⟩ := exec_effect h
  cases heffect <;> simp

/-- Settles O43: the command performed, or the opcode rejected, leaves the configuration alone. -/
theorem configurationNeverChanges : Obligations.ConfigurationNeverChanges := by
  unfold Obligations.ConfigurationNeverChanges
  intro s t h
  obtain ⟨_, ⟨_, rfl⟩ | ⟨i, rest, _, hexec⟩ | ⟨b, rest, _, hreject⟩⟩ := step_eq_next.mp h
  · rfl
  · exact exec_cfg (s := s.withPort rest) hexec
  · cases hreject
    rfl

/-- Settles O45: only a reader takes bytes, only WRITE and POLL store any, and the other three only respond. -/
theorem registersAreWrittenBy : Obligations.RegistersAreWrittenBy := by
  unfold Obligations.RegistersAreWrittenBy
  intro i s t h
  have hwrites : bytesWritten i ≠ [] → ∃ data, i = .write data ∨ i = .poll data :=
    fun hne => ⟨_, writes_of_bytesWritten_ne_nil hne⟩
  refine ⟨?rd, ?wr, ?buffer, exec_port h, exec_cfg h⟩
  case rd =>
    obtain ⟨_, heffect⟩ := exec_effect h
    cases heffect with
    | underflow hi h0 => simp
    | stores r hroom => simp
    | takes m r hi hrd hroom hm => exact fun _ => hi
  case wr =>
    intro hwr
    refine hwrites fun hnil => hwr ?_
    obtain ⟨_, heffect⟩ := exec_effect h
    cases heffect <;> simp [hnil]
  case buffer =>
    intro hne
    refine ⟨?_, fun f => ⟨?_, ?_⟩⟩ <;> rintro rfl
    · obtain ⟨_, rfl⟩ := execUtil_next h
      simp at hne
    · obtain ⟨_, _, rfl⟩ := execValid_next h
      simp at hne
    · obtain ⟨_, _, rfl⟩ := execDecode_next h
      simp at hne

end Sys2Proof.Machine
end

section
/-! SUPPORT. The invariant of the buffer (10_state R22 to R26, R34 (c)) over commands, steps and runs. -/

namespace Sys2Proof.Machine

variable {i : Instr} {c : Config} {s t : State}

theorem inv_withPort (h : s.Inv) (bytes : List Byte) : (s.withPort bytes).Inv := inv_congr h rfl rfl rfl rfl rfl rfl

theorem inv_respond (h : s.Inv) (v : Response) : (s.respond v).Inv := inv_congr h rfl rfl rfl rfl rfl rfl

/-- Setting another sticky bit than OVF does not touch the invariant. -/
theorem inv_setFault (h : s.Inv) {bit : BitVec 3} (hbit : bit.getLsbD 0 = false) : (s.setFault bit).Inv :=
  inv_congr h rfl rfl rfl rfl rfl (by simp only [State.ovf, State.setFault_faultReg, BitVec.getLsbD_or, hbit, Bool.or_false])

/-- Every command that answers keeps the invariant. -/
theorem inv_exec (h : s.Inv) (hexec : exec i s = .next t) : t.Inv := by
  obtain ⟨_, heffect⟩ := exec_effect hexec
  cases heffect with
  | underflow hi h0 => exact inv_respond (inv_setFault h rfl) _
  | stores r hroom => exact inv_respond (inv_stored h _ hroom) r
  | takes m r hi hrd hroom hm => exact inv_respond (inv_consumed (inv_stored h _ hroom) (by simpa using hm)) r

theorem inv_step (h : s.Inv) (hstep : step s = .next t) : t.Inv := by
  obtain ⟨_, ⟨_, rfl⟩ | ⟨i, rest, _, hexec⟩ | ⟨b, rest, _, hreject⟩⟩ := step_eq_next.mp hstep
  · exact h
  · exact inv_exec (inv_withPort h rest) hexec
  · cases hreject
    exact inv_respond (inv_setFault (inv_withPort h rest) (bit := illBit) rfl) _

/-- Settles O11, by the three things a step can do. -/
theorem stepKeepsInvariant : Obligations.StepKeepsInvariant := by
  unfold Obligations.StepKeepsInvariant
  intro s t h hstep
  exact inv_step h hstep

/-- After reset nothing is buffered, so nothing need be written. -/
theorem inv_resetWith (hl : c.Legal) : (State.resetWith c).Inv where
  ready := ⟨hl, hl.1, hl.1⟩
  held := holdsCount_mono (Nat.zero_le _) hl.2.2
  canonical := Memory.wf_nil
  inRange := by simp
  bounded _ := Nat.zero_le _
  cursors := (Nat.zero_mod _).symm
  written _ hk := absurd hk (Nat.not_lt_zero _)

/-- Settles O10, at every legal configuration, of which the model's own is one. -/
theorem resetMeetsInvariant : Obligations.ResetMeetsInvariant := by
  unfold Obligations.ResetMeetsInvariant
  exact ⟨fun c hl => inv_resetWith hl, inv_resetWith (by decide)⟩

/-- What holds of a reachable state: deliveries reach the port alone, and steps keep the invariant and the configuration. -/
theorem inv_of_reachable (hl : c.Legal) (h : Reachable c s) : s.Inv ∧ s.cfg = c := by
  induction h with
  | reset => exact ⟨inv_resetWith hl, rfl⟩
  | deliver bytes _ ih => exact ⟨inv_withPort ih.1 _, ih.2⟩
  | step _ hstep ih => exact ⟨inv_step ih.1 hstep, (configurationNeverChanges _ _ hstep).trans ih.2⟩

/-- `IDX_W` bits hold every index of storage (R22). -/
theorem capacity_le_two_pow_idxW : c.capacity ≤ 2 ^ c.idxW :=
  (Nat.le_pow_clog Nat.one_lt_two _).trans (Nat.pow_le_pow_right Nat.two_pos (le_max_right _ _))

theorem lt_two_pow_of_holdsCount {n w : Nat} (hw : c.countWidth = some w) (h : c.holdsCount n = true) : n < 2 ^ w := by
  simpa [Config.holdsCount, hw] using h

/-- Settles O13: the invariant holds of every reachable state, and the widths follow from the ranges. -/
theorem reachableStatesMeetInvariant : Obligations.ReachableStatesMeetInvariant := by
  unfold Obligations.ReachableStatesMeetInvariant
  intro c s hl h
  obtain ⟨hinv, rfl⟩ := inv_of_reachable hl h
  obtain ⟨_, hrd, hwr⟩ := hinv.ready
  exact ⟨hinv, rfl, hrd.trans_le capacity_le_two_pow_idxW, hwr.trans_le capacity_le_two_pow_idxW,
    fun w hw => lt_two_pow_of_holdsCount hw hinv.held, hinv.bounded⟩

/-- Settles O20: an unread slot of a reachable state holds a byte, and READ answers with it. -/
theorem readReturnsWrittenByte : Obligations.ReadReturnsWrittenByte := by
  unfold Obligations.ReadReturnsWrittenByte
  intro c s hl h h0
  obtain ⟨hinv, _⟩ := inv_of_reachable hl h
  have ⟨_, hrd, _⟩ := hinv.ready
  have hwritten := hinv.written 0 (by omega)
  rw [Nat.add_zero, Nat.mod_eq_of_lt hrd] at hwritten
  obtain ⟨b, hb⟩ := Option.ne_none_iff_exists'.mp hwritten
  refine ⟨b, _, hb, execRead_of_nonempty hinv.ready h0, ?_⟩
  rw [State.respond_responses, State.consumed_responses, byteAt_of_read hb]

/-- Settles O48: without overflow the buffer holds at most `C < L` bytes, before and after the POLL's own, so no extraction begins. -/
theorem smallBufferGivesNoFrame : Obligations.SmallBufferGivesNoFrame := by
  unfold Obligations.SmallBufferGivesNoFrame
  intro c s hl h hsmall hovf
  obtain ⟨hinv, rfl⟩ := inv_of_reachable hl h
  have hshort {u : State} (hu : u.Inv) (hcfg : u.cfg = s.cfg) (hovf : u.ovf = false) : extractFrame u = .next (none, u) :=
    extractFrame_of_short ((hu.bounded hovf).trans_lt (by rwa [hcfg]))
  refine ⟨execFrame_of_extract hl (hshort hinv rfl hovf), fun data t hpoll hovf => ?_⟩
  obtain ⟨⟨_, hL, _⟩, hroom, r, u, hu, rfl⟩ := execPoll_next hpoll
  have hfault : (s.stored data).ovf = u.ovf := by
    rcases extractFrame_next (by simpa using hL) hu with ⟨_, rfl⟩ | ⟨_, m, _, rfl, _⟩ <;> rfl
  have he := hshort (inv_stored hinv data hroom) (stored_cfg data) (hfault.trans hovf)
  cases he.symm.trans hu
  simp [pollResponse]

end Sys2Proof.Machine
end

section
/-! SUPPORT. The buffer as a queue (10_state R26 (c)): consuming takes unread bytes from the front, storing without overflow puts them at the
back. -/

namespace Sys2Proof.Machine

variable {i : Instr} {s t : State}

theorem unread_length : s.unread.length = s.count := ahead_length _

/-- The next `n` bytes are the front of the queue. -/
theorem take_unread {n : Nat} (hn : n ≤ s.count) : s.unread.take n = s.ahead n := by
  simp only [State.unread, State.ahead, ← List.map_take, List.take_range, Nat.min_eq_left hn]

theorem unread_setFault (bit : BitVec 3) : (s.setFault bit).unread = s.unread := rfl

theorem unread_respond (v : Response) : (s.respond v).unread = s.unread := rfl

/-- Consuming bytes takes them from the front of the queue. -/
theorem unread_consumed (hrd : s.rd < s.cfg.capacity) (m : Nat) : (s.consumed m).unread = s.unread.drop m := by
  refine List.ext_getElem? fun k => ?_
  rw [List.getElem?_drop, State.unread, State.unread, ahead_getElem?, ahead_getElem?, aheadByte_consumed m k hrd,
    State.consumed_count]
  exact if_congr (by omega) rfl rfl

/-- Storing a chunk leaves the unread bytes before it alone while `count` stays within `C`. -/
theorem aheadByte_stored_of_lt (h : s.Inv) {data : List Byte} (hfit : s.count + data.length ≤ s.cfg.capacity) {k : Nat}
    (hk : k < s.count) : (s.stored data).aheadByte k = s.aheadByte k := by
  obtain ⟨_, _, hwr⟩ := h.ready
  have hother : (s.stored data).storage.read ((s.rd + k) % s.cfg.capacity) = s.storage.read ((s.rd + k) % s.cfg.capacity) := by
    refine stored_read_other hwr data fun j hj => ?_
    rw [h.cursors, Nat.mod_add_mod, Nat.add_assoc]
    exact mod_add_ne (by omega) (by omega)
  simp only [State.aheadByte, State.byteAt, stored_cfg, stored_rd, hother]

/-- The bytes of a chunk lie behind the unread ones while `count` stays within `C`. -/
theorem aheadByte_stored_of_le (h : s.Inv) {data : List Byte} (hfit : s.count + data.length ≤ s.cfg.capacity) {k : Nat}
    (hk : k < data.length) : (s.stored data).aheadByte (s.count + k) = data[k] := by
  obtain ⟨_, _, hwr⟩ := h.ready
  have hat := stored_read_at hwr data hk (by omega)
  rw [h.cursors, Nat.mod_add_mod, Nat.add_assoc, List.getElem?_eq_getElem hk] at hat
  rw [State.aheadByte, stored_cfg, stored_rd, if_pos (by omega)]
  exact byteAt_of_read hat

/-- Storing a chunk that does not overflow the buffer puts its bytes at the back of the queue, in order (R53). -/
theorem unread_stored (h : s.Inv) {data : List Byte} (hfit : s.count + data.length ≤ s.cfg.capacity) :
    (s.stored data).unread = s.unread ++ data := by
  refine List.ext_getElem? fun k => ?_
  rw [State.unread, ahead_getElem?, stored_count]
  by_cases hk : k < s.count
  · rw [if_pos (by omega), aheadByte_stored_of_lt h hfit hk, List.getElem?_append_left (by rwa [unread_length]),
      State.unread, ahead_getElem?, if_pos hk]
  · obtain ⟨j, rfl⟩ := Nat.exists_eq_add_of_le (Nat.le_of_not_lt hk)
    rw [List.getElem?_append_right (by rw [unread_length]; omega), unread_length, Nat.add_sub_cancel_left]
    by_cases hj : j < data.length
    · rw [if_pos (by omega), aheadByte_stored_of_le h hfit hj, List.getElem?_eq_getElem hj]
    · rw [if_neg (by omega), List.getElem?_eq_none (by omega)]

/-- A frame handed on is the next `L` bytes, its only zero the last, and they are consumed (41_buffer_ops R115, R116). -/
theorem extractFrame_some {f : List Byte} (hL : 2 ≤ s.cfg.frameLen) (h : extractFrame s = .next (some f, t)) :
    s.rd < s.cfg.capacity ∧ s.cfg.frameLen ≤ s.count ∧ f = s.ahead s.cfg.frameLen ∧ t = s.consumed s.cfg.frameLen ∧
      s.aheadByte (s.cfg.frameLen - 1) = 0 ∧ ∀ k < s.cfg.frameLen - 1, s.aheadByte k ≠ 0 := by
  rcases extractFrame_rd hL h with hshort | hrd
  · cases (extractFrame_of_short hshort).symm.trans h
  · rcases extractFrame_spec hrd hL with ⟨_, he⟩ | ⟨hc, m, _, _, hnz, ⟨_, _, he⟩ | ⟨_, _, he⟩ | ⟨rfl, hz, he⟩⟩ <;>
      cases he.symm.trans h
    exact ⟨hrd, hc, rfl, rfl, hz, fun k hk => hnz k (by omega)⟩

/-- The same of FRAME's response. -/
theorem execFrame_some {f : List Byte} (h : exec .frame s = .next t) (hresp : t.responses = s.responses ++ [.frame f]) :
    2 ≤ s.cfg.frameLen ∧ ∃ u, extractFrame s = .next (some f, u) ∧ t = u.respond (.frame f) := by
  obtain ⟨⟨_, hL, _⟩, r, u, hu, rfl⟩ := execFrame_next h
  obtain ⟨huresp, _⟩ := extractFrame_response hL hu
  rw [State.respond_responses, huresp, List.append_cancel_left_eq, List.singleton_inj] at hresp
  cases r with
  | none => cases hresp
  | some g =>
    cases hresp
    exact ⟨hL, u, hu, rfl⟩

/-- The cases of a command, on the queue: what is written joins at the back and what is taken leaves at the front. -/
theorem unread_exec (h : s.Inv) (hexec : exec i s = .next t) (hovf : t.ovf = false) :
    t.count ≤ s.count + (bytesWritten i).length ∧
      t.unread = (s.unread ++ bytesWritten i).drop (s.count + (bytesWritten i).length - t.count) := by
  obtain ⟨_, heffect⟩ := exec_effect hexec
  have hfit (hroom : s.Room (bytesWritten i).length) (hovf : (s.stored (bytesWritten i)).ovf = false) :
      s.count + (bytesWritten i).length ≤ s.cfg.capacity := by
    simpa using (inv_stored h _ hroom).bounded hovf
  cases heffect with
  | underflow hi h0 =>
    subst hi
    exact ⟨Nat.le_refl _, by simp [bytesWritten, unread_respond, unread_setFault]⟩
  | stores r hroom =>
    refine ⟨by simp, ?_⟩
    rw [unread_respond, unread_stored h (hfit hroom hovf)]
    simp
  | takes m r hi hrd hroom hm =>
    refine ⟨by simp, ?_⟩
    rw [unread_respond, unread_consumed (by simpa using hrd), unread_stored h (hfit hroom hovf)]
    congr 1
    simp only [State.respond_count, State.consumed_count, stored_count]
    omega

/-- READ takes the oldest unread byte and responds with it. -/
theorem execRead_unread (h : s.Ready) {b : Byte} {rest : List Byte} (hunread : s.unread = b :: rest)
    (hexec : exec .read s = .next t) : t.responses = s.responses ++ [.byte b] ∧ t.unread = rest := by
  have h0 : s.count ≠ 0 := by rw [← unread_length, hunread]; simp
  have ⟨_, hrd, _⟩ := h
  have hfront : s.byteAt s.rd = b := by
    obtain ⟨n, hn⟩ := Nat.exists_eq_succ_of_ne_zero h0
    rw [State.unread, hn, ahead_succ' n hrd] at hunread
    exact (List.cons.inj hunread).1
  cases (execRead_of_nonempty h h0).symm.trans hexec
  rw [unread_respond, unread_consumed hrd, hunread, State.respond_responses, hfront]
  exact ⟨rfl, rfl⟩

/-- Settles O46, by the cases of a command on the queue, and by what READ and FRAME answer. -/
theorem bufferIsAQueue : Obligations.BufferIsAQueue := by
  unfold Obligations.BufferIsAQueue
  intro i s t h hexec hovf
  obtain ⟨hcount, hunread⟩ := unread_exec h hexec hovf
  refine ⟨hcount, hunread, ?read, ?frame⟩
  case read =>
    rintro rfl b rest hfront
    exact execRead_unread h.ready hfront hexec
  case frame =>
    rintro f rfl hresp
    obtain ⟨hL, u, hu, rfl⟩ := execFrame_some hexec hresp
    obtain ⟨hrd, hc, rfl, rfl, _⟩ := extractFrame_some hL hu
    rw [unread_respond, unread_consumed hrd, ← take_unread hc, List.take_append_drop]

end Sys2Proof.Machine
end

section
/-! SUPPORT. What FRAME hands on and leaves (41_buffer_ops R116, R117), and which slots the commands touch (20_memory R51). -/

namespace Sys2Proof.Machine

variable {i : Instr} {s t : State}

/-- Settles O24: the frame is the bytes up to the first zero, the `L`-th, so of the ill-formed cases of R76 only a jump out of it is left. -/
theorem returnedFrameShape : Obligations.ReturnedFrameShape := by
  unfold Obligations.ReturnedFrameShape
  intro s t f h hresp
  obtain ⟨hL, u, hu, rfl⟩ := execFrame_some h hresp
  obtain ⟨_, _, rfl, _, hzero, hnz⟩ := extractFrame_some hL hu
  have hlen : (s.ahead s.cfg.frameLen).length = s.cfg.frameLen := ahead_length _
  have hat {k : Nat} (hk : k < s.cfg.frameLen) : (s.ahead s.cfg.frameLen)[k]? = some (s.aheadByte k) := by
    rw [ahead_getElem?, if_pos hk]
  have hinner {k : Nat} (hk : k < s.cfg.frameLen - 1) : (s.ahead s.cfg.frameLen)[k]? ≠ some 0 := by
    rw [hat (by omega)]
    exact fun h => hnz k hk (Option.some.inj h)
  have hlast : (s.ahead s.cfg.frameLen)[s.cfg.frameLen - 1]? = some 0 := by rw [hat (by omega), hzero]
  refine ⟨hlen, hlast, fun k hk => ⟨_, hat (by omega), hnz k hk⟩, fun hinvalid => ?_⟩
  rcases (validFrame_eq_false_iff (by omega)).mp hinvalid with hne | hfirst | ⟨p, hp, hout | ⟨hlt, hz⟩⟩
  · exact absurd hlast (by rwa [hlen] at hne)
  · exact absurd hfirst (hinner (by omega))
  · exact ⟨p, hp, hlen ▸ hout⟩
  · exact absurd hz (hinner (hlen ▸ hlt))

/-- Settles O25: an extraction stops at a zero byte, or at its budget of `L` bytes. -/
theorem frameRealignsBehindZero : Obligations.FrameRealignsBehindZero := by
  unfold Obligations.FrameRealignsBehindZero
  rintro s t ⟨_, hrd, _⟩ h hlt
  obtain ⟨⟨_, hL, _⟩, r, u, hu, rfl⟩ := execFrame_next h
  rcases extractFrame_spec hrd hL with ⟨_, he⟩ | ⟨hc, m, hpos, hm, hnz, hstop⟩
  · cases he.symm.trans hu
    exact absurd hlt (Nat.lt_irrefl _)
  · obtain ⟨rfl, hstop⟩ : u = s.consumed m ∧ (s.aheadByte (m - 1) = 0 ∨ m = s.cfg.frameLen ∧ s.aheadByte (m - 1) ≠ 0) := by
      rcases hstop with ⟨_, hz, he⟩ | ⟨hmL, hz, he⟩ | ⟨_, hz, he⟩ <;> cases he.symm.trans hu
      · exact ⟨rfl, .inl hz⟩
      · exact ⟨rfl, .inr ⟨hmL, hz⟩⟩
      · exact ⟨rfl, .inl hz⟩
    have htook : s.count - (s.count - m) = m := by omega
    simp only [State.respond_count, State.consumed_count, State.respond_rd, State.consumed_rd, htook]
    refine ⟨trivial, hstop.imp_right fun ⟨hmL, hz⟩ => ⟨hmL, fun k hk => ?_⟩⟩
    rcases Nat.lt_or_ge (k + 1) m with hbefore | hlast
    · exact hnz k hbefore
    · rwa [show k = m - 1 by omega]

/-- From a read cursor in range, a command that does not underflow stores its bytes and takes some number of bytes, which may be none. -/
theorem exec_takes (hrd : s.rd < s.cfg.capacity) (h : exec i s = .next t) :
    (i = .read ∧ s.count = 0 ∧ t = (s.setFault udfBit).respond (.fault .underflow)) ∨
      ∃ m r, m ≤ s.count + (bytesWritten i).length ∧ t = ((s.stored (bytesWritten i)).consumed m).respond r := by
  obtain ⟨_, heffect⟩ := exec_effect h
  cases heffect with
  | underflow hi h0 => exact .inl ⟨hi, h0, rfl⟩
  | stores r hroom => exact .inr ⟨0, r, Nat.zero_le _, by rw [consumed_zero (by simpa using hrd)]⟩
  | takes m r hi _ hroom hm => exact .inr ⟨m, r, hm, rfl⟩

/-- An underflow sets UDF alone (R112). -/
theorem ovf_setFault_udfBit : (s.setFault udfBit).ovf = s.ovf := by simp [State.ovf, udfBit]

theorem ill_setFault_udfBit : (s.setFault udfBit).ill = s.ill := by simp [State.ill, udfBit]

/-- Settles O26: READ and FRAME write no bytes, so each leaves the state with some bytes taken, but for an underflow. -/
theorem readersTouchOnlyConsumedSlots : Obligations.ReadersTouchOnlyConsumedSlots := by
  unfold Obligations.ReadersTouchOnlyConsumedSlots
  rintro i s t hi ⟨_, hrd, _⟩ h
  have hnone : bytesWritten i = [] := by rcases hi with rfl | rfl <;> rfl
  rcases exec_takes hrd h with ⟨hread, h0, rfl⟩ | ⟨m, r, hm, rfl⟩
  · refine ⟨Nat.le_refl _, ?rd, ?zeroed, fun _ _ => rfl, rfl, rfl, rfl, ovf_setFault_udfBit, ill_setFault_udfBit,
      fun _ => ⟨hread, h0⟩⟩
    case rd => simp [Nat.mod_eq_of_lt hrd]
    case zeroed => simp
  · rw [hnone] at hm ⊢
    have htook : s.count - (s.count - m) = m := by simp at hm; omega
    simp only [stored_nil, State.respond_count, State.consumed_count, htook]
    exact ⟨Nat.sub_le _ _, rfl, fun k hk => zeroSlots_read_run m s.rd hrd hk, fun a ha => zeroSlots_read_other m s.rd hrd ha,
      rfl, rfl, rfl, rfl, rfl, fun h => absurd rfl h⟩

/-- Settles O39: POLL leaves the state with its bytes stored and then some bytes taken. -/
theorem pollTouchesOnlyItsSlots : Obligations.PollTouchesOnlyItsSlots := by
  unfold Obligations.PollTouchesOnlyItsSlots
  rintro s t data ⟨_, hrd, hwr⟩ h
  rcases exec_takes hrd h with ⟨hread, _⟩ | ⟨m, r, hm, rfl⟩
  · cases hread
  · simp only [bytesWritten] at hm ⊢
    have htook : s.count + data.length - (s.count + data.length - m) = m := by omega
    simp only [State.respond_count, State.consumed_count, stored_count, htook]
    refine ⟨Nat.sub_le _ _, stored_wr hwr data, by simp, ?kept, ?zeroed, stored_ovf data, stored_cfg data, stored_port data,
      stored_udf data, stored_ill data⟩
    case kept =>
      intro a hwritten htaken
      rw [State.respond_storage, State.consumed_storage, stored_rd, stored_cfg, zeroSlots_read_other m s.rd hrd htaken,
        stored_read_other hwr data hwritten]
    case zeroed =>
      intro k hk
      rw [State.respond_storage, State.consumed_storage, stored_rd, stored_cfg, zeroSlots_read_run m s.rd hrd hk]

/-- A bit set on top keeps every bit there was. -/
theorem and_or_self_left (f bit : BitVec 3) : f &&& (f ||| bit) = f := by
  ext k hk
  rw [BitVec.getElem_and, BitVec.getElem_or]
  exact inf_sup_self

/-- No command clears a FAULT bit. -/
theorem and_faultReg_exec (h : exec i s = .next t) : s.faultReg &&& t.faultReg = s.faultReg := by
  have hstored : s.faultReg &&& (s.stored (bytesWritten i)).faultReg = s.faultReg := by
    rw [stored_faultReg]
    split
    · exact and_or_self_left _ _
    · exact BitVec.and_self
  obtain ⟨_, heffect⟩ := exec_effect h
  cases heffect with
  | underflow hi h0 => exact and_or_self_left _ _
  | stores r hroom => exact hstored
  | takes m r hi hrd hroom hm => exact hstored

/-- OVF changes only where bytes are stored beyond `C`, which WRITE and POLL do (R111). -/
theorem writes_of_stored_ovf_ne (h : (s.stored (bytesWritten i)).ovf ≠ s.ovf) :
    ∃ data, (i = .write data ∨ i = .poll data) ∧ s.cfg.capacity < s.count + data.length := by
  have hset := stored_ovf (s := s) (bytesWritten i)
  have hover : bytesWritten i ≠ [] ∧ s.cfg.capacity < s.count + (bytesWritten i).length := by
    by_contra hnot
    rw [or_iff_left hnot, ← Bool.eq_iff_iff] at hset
    exact h hset
  exact ⟨_, writes_of_bytesWritten_ne_nil hover.1, hover.2⟩

/-- Settles O41: storing sets OVF at most, an underflow UDF, and a rejected opcode ILL; nothing clears a bit. -/
theorem faultBitsAreSticky : Obligations.FaultBitsAreSticky := by
  unfold Obligations.FaultBitsAreSticky
  constructor
  · intro s t h
    obtain ⟨_, ⟨_, rfl⟩ | ⟨i, rest, _, hexec⟩ | ⟨b, rest, _, hreject⟩⟩ := step_eq_next.mp h
    · exact BitVec.and_self
    · exact and_faultReg_exec (s := s.withPort rest) hexec
    · cases hreject
      exact and_or_self_left _ _
  · intro i s t h
    obtain ⟨_, heffect⟩ := exec_effect h
    cases heffect with
    | underflow hi h0 => exact ⟨ill_setFault_udfBit, fun _ => ⟨hi, h0⟩, fun hne => absurd ovf_setFault_udfBit hne⟩
    | stores r hroom => exact ⟨stored_ill _, fun hne => absurd (stored_udf _) hne, writes_of_stored_ovf_ne⟩
    | takes m r hi hrd hroom hm => exact ⟨stored_ill _, fun hne => absurd (stored_udf _) hne, writes_of_stored_ovf_ne⟩

end Sys2Proof.Machine
end

section
/-! SUPPORT. Paths of pointers through a frame (42_frame_validator R132 to R135): a path ends at once or makes the one jump its first byte
names, so a frame has one path from a position, and it rises. -/

namespace Sys2Proof.Machine

variable {f : List Byte} {b first : Byte} {n cur i j k p : Nat} {positions rest : List Nat}

/-- A path is the last index alone, or a jump from a pointer and a path from where it points. -/
theorem chainPath_cases (h : ChainPath f cur positions) : (cur = f.length - 1 ∧ positions = [cur]) ∨
    ∃ b rest, f[cur]? = some b ∧ b ≠ 0 ∧ positions = cur :: rest ∧ ChainPath f (cur + b.toNat) rest ∧ cur + b.toNat ≤ f.length - 1 := by
  obtain ⟨hhead, hend, hchain⟩ := h
  match positions, hhead with
  | [x], hhead =>
    obtain rfl : x = cur := by simpa using hhead
    exact .inl ⟨by simpa using hend, rfl⟩
  | x :: y :: rest, hhead =>
    obtain rfl : x = cur := by simpa using hhead
    obtain ⟨⟨b, hb, hnz, rfl⟩, hchain⟩ := List.isChain_cons_cons.mp hchain
    have hpath : ChainPath f (x + b.toNat) ((x + b.toNat) :: rest) := ⟨rfl, by simpa using hend, hchain⟩
    have hlt : x < f.length := (List.getElem?_eq_some_iff.mp hb).1
    exact .inr ⟨b, _, hb, hnz, rfl, hpath, chainPath_le hpath (by omega)⟩

/-- One path leads from a position (R135): each jump is the one its byte names. -/
theorem chainPath_unique {others : List Nat} (h : ChainPath f cur positions) (ho : ChainPath f cur others) : positions = others := by
  induction positions generalizing cur others with
  | nil => cases h.1
  | cons x tail ih =>
    rcases chainPath_cases h with ⟨hlast, hp⟩ | ⟨b, rest, hb, hnz, hp, hpath, hle⟩ <;>
      rcases chainPath_cases ho with ⟨hlast', rfl⟩ | ⟨b', rest', hb', hnz', rfl, hpath', hle'⟩
    · exact hp
    · have := toNat_pos hnz'
      omega
    · have := toNat_pos hnz
      omega
    · obtain rfl : b = b' := Option.some.inj (hb.symm.trans hb')
      obtain ⟨rfl, rfl⟩ := List.cons.inj hp
      rw [ih hpath hpath']

/-- Settles O27: the verdict is the closed form, and a pointer chain is the one path from index 0. -/
theorem validMeetsClosedForm : Obligations.ValidMeetsClosedForm := by
  unfold Obligations.ValidMeetsClosedForm
  constructor
  · intro s f hl hlen
    have ⟨_, hL, _⟩ := hl
    refine ⟨_, execValid_of_length hl hlen, ?_⟩
    rw [← hlen] at hL ⊢
    exact validFrame_iff_isPointerChain hL
  · rintro f is js ⟨_, his⟩ ⟨_, hjs⟩
    exact chainPath_unique his hjs

/-- A chain position is the first byte's value or a jump from inside the frame, so it overshoots by less than a byte's range (R133). -/
theorem onChain_lt (hL : 2 ≤ f.length) (h : OnChain f p) : p < f.length + 255 := by
  cases h with
  | @first b hb => have := b.isLt; omega
  | @jump p b _ _ hb _ =>
    have hin : p < f.length := (List.getElem?_eq_some_iff.mp hb).1
    have := b.isLt
    omega

/-- Settles O29: the walk's verdict is whether a path leads on, which does not speak of the fuel. -/
theorem chainWalkIsBounded : Obligations.ChainWalkIsBounded := by
  unfold Obligations.ChainWalkIsBounded
  rintro c f first ⟨_, hL, _⟩ hlen hfirst
  constructor
  · intro p hp
    have hlt := onChain_lt (by omega) hp
    rw [hlen] at hlt
    exact ⟨hlt, hlt.trans_le (Nat.le_pow_clog Nat.one_lt_two _)⟩
  · intro hlast n hn
    rw [← hlen] at hlast hn ⊢
    by_cases hzero : first = 0
    · simp [hzero, chainWalk_at_zero]
    · have hpos := toNat_pos hzero
      rw [Bool.eq_iff_iff, chainWalk_iff_path hlast (by omega) (by omega), chainWalk_iff_path hlast (by omega) (by omega)]

/-- A path rises (R133). -/
theorem chainPath_pairwise (h : ChainPath f cur positions) : positions.Pairwise (· < ·) := by
  obtain ⟨_, _, hchain⟩ := h
  refine (hchain.imp fun i j ⟨b, _, hnz, hj⟩ => ?_).pairwise
  have := toNat_pos hnz
  omega

theorem chainPath_le_of_mem (h : ChainPath f cur positions) (hk : k ∈ positions) : cur ≤ k := by
  match positions, h.1 with
  | x :: rest, hhead =>
    obtain rfl : x = cur := by simpa using hhead
    rcases List.mem_cons.mp hk with rfl | hk
    · exact Nat.le_refl _
    · exact Nat.le_of_lt ((List.pairwise_cons.mp (chainPath_pairwise h)).1 k hk)

/-- Each position of a path but the last index holds the distance to the next one: where it points is on the path, and nothing between is. -/
theorem chainPath_next (h : ChainPath f cur positions) (hi : i ∈ positions) (hlast : i ≠ f.length - 1) :
    ∃ b, f[i]? = some b ∧ b ≠ 0 ∧ i + b.toNat ∈ positions ∧ i + b.toNat ≤ f.length - 1 ∧
      ∀ k ∈ positions, k ≤ i ∨ i + b.toNat ≤ k := by
  induction positions generalizing cur with
  | nil => cases hi
  | cons x tail ih =>
    rcases chainPath_cases h with ⟨hend, hp⟩ | ⟨b, rest, hb, hnz, hp, hpath, hle⟩
    · obtain ⟨rfl, rfl⟩ := List.cons.inj hp
      exact absurd (List.mem_singleton.mp hi) (hend ▸ hlast)
    · obtain ⟨rfl, rfl⟩ := List.cons.inj hp
      rcases List.mem_cons.mp hi with rfl | hi
      · refine ⟨b, hb, hnz, List.mem_cons_of_mem _ (List.mem_of_head? hpath.1), hle, fun k hk => ?_⟩
        exact (List.mem_cons.mp hk).imp Nat.le_of_eq (chainPath_le_of_mem hpath)
      · obtain ⟨b', hb', hnz', hmem, hle', hbetween⟩ := ih hpath hi
        have hx := chainPath_le_of_mem hpath hi
        refine ⟨b', hb', hnz', List.mem_cons_of_mem _ hmem, hle', List.forall_mem_cons.mpr ⟨.inl (by omega), hbetween⟩⟩

end Sys2Proof.Machine
end

section
/-! SUPPORT. DECODE against the pointer chain (43_frame_decoder R141, R142): the positions it visits are the chain's, so its record has a zero
just where a pointer stood. -/

namespace Sys2Proof.Machine

variable {f : List Byte} {n cur k : Nat} {positions inner : List Nat}

/-- The walk of `unstuff` visits a path's positions but the last (R141). -/
theorem visitedFrom_of_chainPath (hz : f[f.length - 1]? = some 0) (h : ChainPath f cur positions) (hfuel : f.length ≤ cur + n) :
    visitedFrom f n cur = positions.dropLast := by
  have hpos : f.length - 1 < f.length := (List.getElem?_eq_some_iff.mp hz).1
  induction n generalizing cur positions with
  | zero => have := chainPath_le h (by omega); omega
  | succ n ih =>
    rcases chainPath_cases h with ⟨rfl, rfl⟩ | ⟨b, rest, hb, hnz, rfl, hpath, hle⟩
    · exact visitedFrom_end hz
    · have := toNat_pos hnz
      have hne : rest ≠ [] := by rintro rfl; cases hpath.1
      rw [visitedFrom_jump hb hnz, ih hpath (by omega), List.dropLast_cons_of_ne_nil hne]

/-- A pointer chain is index 0, the inner pointers in rising order, and the last index. -/
theorem exists_inner_of_isPointerChain (h : IsPointerChain f positions) :
    ∃ inner, positions = 0 :: (inner ++ [f.length - 1]) ∧ inner.Nodup ∧ ∀ i ∈ inner, 1 ≤ i ∧ i < f.length - 1 := by
  obtain ⟨hlen, hpath⟩ := h
  have hrise := chainPath_pairwise hpath
  obtain ⟨hhead, hend, _⟩ := hpath
  match positions, hhead with
  | x :: rest, hhead =>
    obtain rfl : x = 0 := by simpa using hhead
    have hne : rest ≠ [] := by rintro rfl; simp at hlen
    have hsplit : rest.dropLast ++ [f.length - 1] = rest := by
      rw [List.getLast?_cons, List.getLast?_eq_some_getLast hne] at hend
      rw [← Option.some.inj hend]
      exact List.dropLast_append_getLast hne
    obtain ⟨hzero, hrest⟩ := List.pairwise_cons.mp hrise
    rw [← hsplit, List.pairwise_append] at hrest
    refine ⟨rest.dropLast, by rw [hsplit], hrest.1.imp Nat.ne_of_lt, fun i hi => ⟨?_, ?_⟩⟩
    · exact hzero i (List.mem_of_mem_dropLast hi)
    · exact hrest.2.2 i hi _ (List.mem_singleton_self _)

/-- DECODE zeroes the inner pointers of the chain (R141). -/
theorem unstuff_of_isPointerChain (hz : f[f.length - 1]? = some 0) (h : IsPointerChain f (0 :: (inner ++ [f.length - 1]))) :
    unstuff f = zeroAt (frameInterior f) inner := by
  rcases chainPath_cases h.2 with ⟨_, hp⟩ | ⟨b, rest, hb, _, hp, hpath, _⟩
  · simp at hp
  · obtain ⟨-, rfl⟩ := List.cons.inj hp
    rw [Nat.zero_add] at hpath
    rw [unstuff_of_first hb, visitedFrom_of_chainPath hz hpath (by omega), List.dropLast_concat]

/-- An index of the record stands for an inner pointer or for none. -/
theorem succ_mem_chain_iff (hk : k < f.length - 2) : k + 1 ∈ 0 :: (inner ++ [f.length - 1]) ↔ k + 1 ∈ inner := by
  have hlast : k + 1 ≠ f.length - 1 := by omega
  simp [hlast]

/-- The record has zero where a pointer stood and the frame's byte elsewhere (R142). -/
theorem unstuff_getElem? (hz : f[f.length - 1]? = some 0) (h : IsPointerChain f positions) (hk : k < f.length - 2) :
    (unstuff f)[k]? = if k + 1 ∈ positions then some 0 else f[k + 1]? := by
  obtain ⟨inner, rfl, _, hinner⟩ := exists_inner_of_isPointerChain h
  rw [unstuff_of_isPointerChain hz h, zeroAt_getElem? _ _ (fun i hi => (hinner i hi).1) (by rwa [frameInterior_length]),
    frameInterior_getElem? hk]
  exact if_congr (succ_mem_chain_iff hk).symm rfl rfl

/-- Among the indices of the record, the pointers are the chain's positions without its first and last. -/
theorem countP_mem_chain (h : IsPointerChain f positions) :
    ((List.range (f.length - 2)).countP fun k => decide (k + 1 ∈ positions)) = positions.length - 2 := by
  obtain ⟨inner, rfl, hnodup, hinner⟩ := exists_inner_of_isPointerChain h
  have hperm : (((List.range (f.length - 2)).filter fun k => decide (k + 1 ∈ 0 :: (inner ++ [f.length - 1]))).map (· + 1)).Perm inner := by
    refine (List.perm_ext_iff_of_nodup ((List.nodup_range.filter _).map (add_left_injective 1)) hnodup).mpr fun i => ?_
    simp only [List.mem_map, List.mem_filter, List.mem_range, decide_eq_true_eq]
    constructor
    · rintro ⟨k, ⟨hk, hmem⟩, rfl⟩
      exact (succ_mem_chain_iff hk).mp hmem
    · intro hi
      obtain ⟨h1, hlt⟩ := hinner i hi
      obtain ⟨k, rfl⟩ := Nat.exists_eq_add_of_le' h1
      have hk : k < f.length - 2 := by omega
      exact ⟨k, ⟨hk, (succ_mem_chain_iff hk).mpr hi⟩, rfl⟩
  rw [List.countP_eq_length_filter, ← List.length_map (· + 1), hperm.length_eq]
  simp

/-- When the frame's interior has no zero byte, the zeros of the record are the pointers. -/
theorem count_zero_unstuff (hz : f[f.length - 1]? = some 0) (h : IsPointerChain f positions)
    (hinterior : ∀ k, 1 ≤ k → k < f.length - 1 → f[k]? ≠ some 0) : (unstuff f).count 0 = positions.length - 2 := by
  have hmap : (unstuff f).map (· == 0) = (List.range (f.length - 2)).map fun k => decide (k + 1 ∈ positions) := by
    refine List.ext_getElem? fun k => ?_
    rw [List.getElem?_map, List.getElem?_map]
    by_cases hk : k < f.length - 2
    · rw [unstuff_getElem? hz h hk, List.getElem?_range hk]
      by_cases hmem : k + 1 ∈ positions
      · simp [hmem]
      · have hnz := hinterior (k + 1) (by omega) (by omega)
        rw [List.getElem?_eq_getElem (by omega)] at hnz ⊢
        simpa [hmem] using hnz
    · rw [List.getElem?_eq_none (by rw [unstuff_length]; omega), List.getElem?_eq_none (by rw [List.length_range]; omega)]
      rfl
  calc (unstuff f).count 0 = ((unstuff f).map (· == 0)).countP id := by rw [List.countP_map]; rfl
    _ = (List.range (f.length - 2)).countP fun k => decide (k + 1 ∈ positions) := by rw [hmap, List.countP_map]; rfl
    _ = positions.length - 2 := countP_mem_chain h

/-- Settles O30, by what the record holds at each index, and by counting the pointers among them. -/
theorem decodeRestoresZeros : Obligations.DecodeRestoresZeros := by
  unfold Obligations.DecodeRestoresZeros
  intro s f positions hl hlen hz hchain
  rw [← hlen] at hz ⊢
  have ⟨_, hL, _⟩ := hl
  have hvalid := (validFrame_iff_isPointerChain (by omega)).mpr ⟨hz, _, hchain⟩
  refine ⟨unstuff f, ?_, unstuff_length, fun k hk => unstuff_getElem? hz hchain hk, countP_mem_chain hchain,
    count_zero_unstuff hz hchain⟩
  rw [execDecode_of_length hl hlen, decodeResponse_of_valid hvalid]
  rfl

end Sys2Proof.Machine
end

section
/-! SUPPORT. The sender's stuffing (43_frame_decoder R146): what a stuffed frame holds at each index, and its pointer chain. -/

namespace Sys2Proof.Machine

variable {f payload rest : List Byte} {b : Byte} {i j k n : Nat}

/-! The gap to the next zero. -/

theorem gap_pos : 1 ≤ gap rest := Nat.le_add_left 1 _

theorem gap_zero_cons : gap (0 :: rest) = 1 := by simp [gap]

theorem gap_cons_of_ne (hb : b ≠ 0) : gap (b :: rest) = gap rest + 1 := by
  rw [gap, List.takeWhile_cons_of_pos (by exact decide_eq_true hb)]
  rfl

/-- The gap is told by where the first zero is, or the end. -/
theorem gap_eq (hn : n ≤ rest.length) (hnz : ∀ k < n, rest[k]? ≠ some 0) (hend : n = rest.length ∨ rest[n]? = some 0) :
    gap rest = n + 1 := by
  induction rest generalizing n with
  | nil => simp at hn; simp [gap, hn]
  | cons b rest ih =>
    cases n with
    | zero =>
      obtain rfl : b = 0 := by simpa using hend
      exact gap_zero_cons
    | succ n =>
      have hb : b ≠ 0 := fun h => hnz 0 (by omega) (by simp [h])
      rw [gap_cons_of_ne hb, ih (by simpa using hn) (fun k hk => by simpa using hnz (k + 1) (by omega)) (by simpa using hend)]

/-- A gap of at most 255 fits its pointer byte, which is then no zero. -/
theorem toNat_ofNat_gap (h : gap rest ≤ 255) : (BitVec.ofNat 8 (gap rest)).toNat = gap rest :=
  (BitVec.toNat_ofNat _ _).trans (Nat.mod_eq_of_lt (by omega))

theorem ofNat_gap_ne_zero (h : gap rest ≤ 255) : BitVec.ofNat 8 (gap rest) ≠ 0 := by
  intro hzero
  have hgap := toNat_ofNat_gap h
  rw [hzero] at hgap
  have := gap_pos (rest := rest)
  simp at hgap
  omega

theorem gapsFit_cons : gapsFit (b :: rest) = true ↔ (b = 0 → gap rest ≤ 255) ∧ gapsFit rest = true := by
  rw [gapsFit, Bool.and_eq_true, Bool.or_eq_true, decide_eq_true_eq, decide_eq_true_eq, ne_eq, ← imp_iff_not_or]

/-- Every gap behind a zero byte fits, said at each index. -/
theorem gapsFit_iff : gapsFit payload = true ↔ ∀ k, payload[k]? = some 0 → gap (payload.drop (k + 1)) ≤ 255 := by
  induction payload with
  | nil => simp [gapsFit]
  | cons b rest ih =>
    rw [gapsFit_cons, ih]
    constructor
    · rintro ⟨hfirst, hrest⟩ (_ | k) hk
      · exact hfirst (Option.some.inj hk)
      · exact hrest k hk
    · intro h
      exact ⟨fun hb => h 0 (congrArg some hb), fun k hk => h (k + 1) hk⟩

theorem stuffable_iff : stuffable payload = true ↔ gap payload ≤ 255 ∧ gapsFit payload = true := by
  rw [stuffable, Bool.and_eq_true, decide_eq_true_eq]

/-! The bytes of the stuffed frame. -/

theorem stuffRest_cons_of_ne (hb : b ≠ 0) : stuffRest (b :: rest) = b :: stuffRest rest := by rw [stuffRest, if_neg hb]

theorem stuffRest_length : (stuffRest payload).length = payload.length + 1 := by
  induction payload with
  | nil => rfl
  | cons b rest ih => rw [stuffRest, List.length_cons, ih, List.length_cons]

theorem stuff_length : (stuff payload).length = payload.length + 2 := by rw [stuff, List.length_cons, stuffRest_length]

theorem stuffRest_getElem?_length : (stuffRest payload)[payload.length]? = some 0 := by
  induction payload with
  | nil => rfl
  | cons b rest ih => exact ih

/-- A payload byte that is not zero is copied. -/
theorem stuffRest_getElem?_of_ne (hb : payload[k]? = some b) (hnz : b ≠ 0) : (stuffRest payload)[k]? = some b := by
  induction payload generalizing k with
  | nil => cases hb
  | cons c rest ih =>
    cases k with
    | zero =>
      obtain rfl : c = b := Option.some.inj hb
      rw [stuffRest_cons_of_ne hnz]
      rfl
    | succ k => exact ih hb

/-- A zero of the payload becomes the pointer over the gap behind it. -/
theorem stuffRest_getElem?_of_zero (hz : payload[k]? = some 0) :
    (stuffRest payload)[k]? = some (BitVec.ofNat 8 (gap (payload.drop (k + 1)))) := by
  induction payload generalizing k with
  | nil => cases hz
  | cons c rest ih =>
    cases k with
    | zero =>
      obtain rfl : c = 0 := by simpa using hz
      rfl
    | succ k => exact ih hz

/-- No byte of a stuffed frame before the terminator is zero. -/
theorem stuff_getElem?_ne_zero (h : stuffable payload = true) (hk : k < payload.length + 1) :
    ∃ b, (stuff payload)[k]? = some b ∧ b ≠ 0 := by
  obtain ⟨hgap, hfit⟩ := stuffable_iff.mp h
  cases k with
  | zero => exact ⟨_, rfl, ofNat_gap_ne_zero hgap⟩
  | succ k =>
    have hb := List.getElem?_eq_getElem (l := payload) (i := k) (by omega)
    by_cases hzero : payload[k] = 0
    · rw [hzero] at hb
      exact ⟨_, stuffRest_getElem?_of_zero hb, ofNat_gap_ne_zero (gapsFit_iff.mp hfit k hb)⟩
    · exact ⟨_, stuffRest_getElem?_of_ne hb hzero, hzero⟩

/-! The chain of the stuffed frame. -/

/-- The indices, in a stuffed frame, of the zeros of its payload and of the terminator, when the payload starts at index `i`. -/
def pointersFrom (i : Nat) : List Byte → List Nat
  | [] => [i]
  | b :: rest => if b = 0 then i :: pointersFrom (i + 1) rest else pointersFrom (i + 1) rest

theorem pointersFrom_zero_cons : pointersFrom i (0 :: rest) = i :: pointersFrom (i + 1) rest := if_pos rfl

theorem pointersFrom_cons_of_ne (hb : b ≠ 0) : pointersFrom i (b :: rest) = pointersFrom (i + 1) rest := if_neg hb

theorem le_of_mem_pointersFrom (h : j ∈ pointersFrom i payload) : i ≤ j := by
  induction payload generalizing i with
  | nil => exact Nat.le_of_eq (List.mem_singleton.mp h).symm
  | cons b rest ih =>
    by_cases hb : b = 0
    · subst hb
      rw [pointersFrom_zero_cons, List.mem_cons] at h
      rcases h with rfl | h
      · exact Nat.le_refl _
      · have := ih h
        omega
    · rw [pointersFrom_cons_of_ne hb] at h
      have := ih h
      omega

theorem mem_pointersFrom_iff (hk : k < payload.length) : i + k ∈ pointersFrom i payload ↔ payload[k]? = some 0 := by
  induction payload generalizing i k with
  | nil => cases hk
  | cons b rest ih =>
    have hnot : i ∉ pointersFrom (i + 1) rest := fun h => Nat.not_succ_le_self i (le_of_mem_pointersFrom h)
    cases k with
    | zero =>
      rw [Nat.add_zero, List.getElem?_cons_zero, Option.some.injEq]
      by_cases hb : b = 0
      · subst hb
        exact iff_of_true List.mem_cons_self rfl
      · rw [pointersFrom_cons_of_ne hb]
        exact iff_of_false hnot hb
    | succ k =>
      have htail := ih (i := i + 1) (k := k) (by simpa using hk)
      rw [Nat.add_right_comm, Nat.add_assoc] at htail
      rw [List.getElem?_cons_succ]
      by_cases hb : b = 0
      · subst hb
        rw [pointersFrom_zero_cons, List.mem_cons, or_iff_right (by omega), htail]
      · rw [pointersFrom_cons_of_ne hb, htail]

/-- The pointers from where the payload's first zero stands lead to the terminator. -/
theorem chainPath_pointersFrom (hfit : gapsFit payload = true) (hdrop : f.drop i = stuffRest payload) :
    ChainPath f (i + gap payload - 1) (pointersFrom i payload) := by
  induction payload generalizing i with
  | nil =>
    have hlen := congrArg List.length hdrop
    rw [List.length_drop, stuffRest_length] at hlen
    obtain rfl : i = f.length - 1 := by simp at hlen; omega
    exact chainPath_singleton
  | cons b rest ih =>
    obtain ⟨hb, hfit⟩ := gapsFit_cons.mp hfit
    rw [stuffRest] at hdrop
    have htail := ih (i := i + 1) hfit (by rw [← List.drop_drop, hdrop]; rfl)
    by_cases hzero : b = 0
    · subst hzero
      have hgap := hb rfl
      have hat : f[i]? = some (BitVec.ofNat 8 (gap rest)) := by
        rw [← Nat.add_zero i, ← List.getElem?_drop, hdrop]
        rfl
      have hlen := congrArg List.length hdrop
      rw [List.length_drop, List.length_cons, stuffRest_length] at hlen
      rw [gap_zero_cons, Nat.add_sub_cancel, pointersFrom_zero_cons, chainPath_jump hat (ofNat_gap_ne_zero hgap) (by omega),
        toNat_ofNat_gap hgap]
      rw [Nat.add_right_comm, Nat.add_sub_cancel] at htail
      exact ⟨_, rfl, htail⟩
    · rw [gap_cons_of_ne hzero, pointersFrom_cons_of_ne hzero]
      rwa [Nat.add_right_comm, Nat.add_assoc] at htail

/-- The pointer chain of a stuffed frame (R146). -/
theorem isPointerChain_stuff (h : stuffable payload = true) : IsPointerChain (stuff payload) (0 :: pointersFrom 1 payload) := by
  obtain ⟨hgap, hfit⟩ := stuffable_iff.mp h
  have hlen := stuff_length (payload := payload)
  have hpath := chainPath_pointersFrom (f := stuff payload) (i := 1) hfit rfl
  rw [Nat.add_sub_cancel_left, ← toNat_ofNat_gap hgap, ← Nat.zero_add (BitVec.toNat _)] at hpath
  rw [isPointerChain_iff_chainPath (by omega), chainPath_jump rfl (ofNat_gap_ne_zero hgap) (by omega)]
  exact ⟨_, rfl, hpath⟩

theorem stuff_getElem?_last : (stuff payload)[(stuff payload).length - 1]? = some 0 := by
  rw [stuff_length]
  exact stuffRest_getElem?_length

/-- DECODE's copy of a stuffed frame is the payload: zero where the chain has a pointer, which is where the payload has zero. -/
theorem unstuff_stuff (h : stuffable payload = true) : unstuff (stuff payload) = payload := by
  refine List.ext_getElem? fun k => ?_
  by_cases hk : k < payload.length
  · rw [unstuff_getElem? stuff_getElem?_last (isPointerChain_stuff h) (by rwa [stuff_length])]
    have hmem : k + 1 ∈ 0 :: pointersFrom 1 payload ↔ payload[k]? = some 0 := by
      rw [← mem_pointersFrom_iff (i := 1) hk, Nat.add_comm 1 k]
      simp
    split
    next hzero => exact (hmem.mp hzero).symm
    next hnot =>
      rw [hmem, List.getElem?_eq_getElem hk, Option.some.injEq] at hnot
      rw [List.getElem?_eq_getElem hk]
      exact stuffRest_getElem?_of_ne (List.getElem?_eq_getElem hk) hnot
  · rw [List.getElem?_eq_none (by rw [unstuff_length, stuff_length]; omega), List.getElem?_eq_none (by omega)]

/-- Settles O33: the zeros of the payload are the pointers of the frame, so they make its chain, and DECODE puts them back. -/
theorem decodeUndoesStuffing : Obligations.DecodeUndoesStuffing := by
  unfold Obligations.DecodeUndoesStuffing
  intro s payload hl hpayload h
  have ⟨_, hL, _⟩ := hl
  have hlen : (stuff payload).length = s.cfg.frameLen := by
    rw [stuff_length, hpayload, Config.payloadLen]
    omega
  have hvalid : validFrame (stuff payload) = true :=
    (validFrame_iff_isPointerChain (by omega)).mpr ⟨stuff_getElem?_last, _, isPointerChain_stuff h⟩
  rw [execValid_of_length hl hlen, execDecode_of_length hl hlen, decodeResponse_of_valid hvalid, unstuff_stuff h, hvalid]
  refine ⟨fun k hk => stuff_getElem?_ne_zero h ?_, rfl, rfl⟩
  rw [← hlen, stuff_length] at hk
  omega

end Sys2Proof.Machine
end

section
/-! SUPPORT. Stuffing the record of a valid frame (43_frame_decoder R146): each pointer of the frame is the gap to the next zero of the record. -/

namespace Sys2Proof.Machine

variable {f : List Byte} {i k : Nat} {positions : List Nat}

/-- A frame that VALID accepts has a pointer and a terminator. -/
theorem two_le_length_of_validFrame (h : validFrame f = true) : 2 ≤ f.length := by
  obtain ⟨_, first, hfirst, hwalk⟩ := validFrame_iff.mp h
  have hpos : 0 < f.length := (List.getElem?_eq_some_iff.mp hfirst).1
  have hne : first.toNat ≠ 0 := by
    intro hzero
    rw [hzero, chainWalk_at_zero] at hwalk
    cases hwalk
  have hin : ¬f.length ≤ first.toNat := by
    intro hout
    rw [chainWalk_outside hout] at hwalk
    cases hwalk
  omega

/-- With no zero in the interior, the zeros of the record are just the pointers. -/
theorem unstuff_getElem?_eq_zero_iff (hz : f[f.length - 1]? = some 0) (h : IsPointerChain f positions)
    (hinterior : ∀ k, 1 ≤ k → k < f.length - 1 → f[k]? ≠ some 0) (hk : k < f.length - 2) :
    (unstuff f)[k]? = some 0 ↔ k + 1 ∈ positions := by
  rw [unstuff_getElem? hz h hk]
  split
  next hmem => exact iff_of_true rfl hmem
  next hnot => exact iff_of_false (hinterior (k + 1) (by omega) (by omega)) hnot

/-- A pointer of the frame holds the gap behind it in the record: the zeros that end the gap are pointers too, or the end. -/
theorem gap_drop_unstuff (hz : f[f.length - 1]? = some 0) (h : IsPointerChain f positions)
    (hinterior : ∀ k, 1 ≤ k → k < f.length - 1 → f[k]? ≠ some 0) (hi : i ∈ positions) (hlast : i < f.length - 1) :
    f[i]? = some (BitVec.ofNat 8 (gap ((unstuff f).drop i))) ∧ gap ((unstuff f).drop i) ≤ 255 := by
  obtain ⟨b, hb, hnz, hnext, hle, hbetween⟩ := chainPath_next h.2 hi (by omega)
  have hpos := toNat_pos hnz
  have hrecord {k : Nat} (hk : i + k < f.length - 2) : ((unstuff f).drop i)[k]? = some 0 ↔ i + k + 1 ∈ positions := by
    rw [List.getElem?_drop]
    exact unstuff_getElem?_eq_zero_iff hz h hinterior hk
  have hlen : ((unstuff f).drop i).length = f.length - 2 - i := by rw [List.length_drop, unstuff_length]
  have hgap : gap ((unstuff f).drop i) = b.toNat - 1 + 1 := gap_eq (by omega) ?before ?stop
  case before =>
    intro k hk
    rw [ne_eq, hrecord (by omega)]
    intro hmem
    have := hbetween _ hmem
    omega
  case stop =>
    by_cases hend : i + b.toNat = f.length - 1
    · exact .inl (by omega)
    · refine .inr ((hrecord (by omega)).mpr ?_)
      rwa [show i + (b.toNat - 1) + 1 = i + b.toNat by omega]
  rw [hgap, Nat.sub_add_cancel hpos, BitVec.ofNat_toNat, BitVec.setWidth_eq]
  exact ⟨hb, Nat.le_of_lt_succ b.isLt⟩

/-- Settles O34, byte by byte: a pointer of the frame is the gap in the record, and any other byte is copied both ways. -/
theorem stuffingUndoesDecode : Obligations.StuffingUndoesDecode := by
  unfold Obligations.StuffingUndoesDecode
  intro f hvalid hinterior
  have hL := two_le_length_of_validFrame hvalid
  obtain ⟨hz, positions, hchain⟩ := (validFrame_iff_isPointerChain hL).mp hvalid
  have hlen : (unstuff f).length = f.length - 2 := unstuff_length
  obtain ⟨hfirst, hfit⟩ := gap_drop_unstuff hz hchain hinterior (List.mem_of_head? hchain.2.1) (by omega)
  have hpointer {k : Nat} (hk : (unstuff f)[k]? = some 0) :
      f[k + 1]? = some (BitVec.ofNat 8 (gap ((unstuff f).drop (k + 1)))) ∧ gap ((unstuff f).drop (k + 1)) ≤ 255 := by
    have hlt : k < f.length - 2 := hlen ▸ (List.getElem?_eq_some_iff.mp hk).1
    exact gap_drop_unstuff hz hchain hinterior ((unstuff_getElem?_eq_zero_iff hz hchain hinterior hlt).mp hk) (by omega)
  refine ⟨List.ext_getElem? fun j => ?_, stuffable_iff.mpr ⟨hfit, gapsFit_iff.mpr fun k hk => (hpointer hk).2⟩⟩
  cases j with
  | zero => exact hfirst.symm
  | succ k =>
    rw [stuff, List.getElem?_cons_succ]
    rcases Nat.lt_trichotomy k (unstuff f).length with hlt | rfl | hgt
    · have hk := List.getElem?_eq_getElem hlt
      have hrecord := unstuff_getElem? hz hchain (hlen ▸ hlt)
      by_cases hzero : (unstuff f)[k] = 0
      · rw [hzero] at hk
        rw [stuffRest_getElem?_of_zero hk, (hpointer hk).1]
      · rw [stuffRest_getElem?_of_ne hk hzero, ← hk, hrecord, if_neg]
        intro hmem
        rw [if_pos hmem, hk] at hrecord
        exact hzero (Option.some.inj hrecord)
    · rw [stuffRest_getElem?_length, hlen, ← hz]
      congr 1
      omega
    · rw [List.getElem?_eq_none (by rw [stuffRest_length]; omega), List.getElem?_eq_none (by omega)]

end Sys2Proof.Machine
end

section
/-! SUPPORT. The commands that touch no buffer (10_state R30, R56): VALID and DECODE answer from their operand and `L` alone, and with UTIL they
only respond. -/

namespace Sys2Proof.Machine

/-- Settles O35: the responses of VALID and DECODE are functions of the operand. -/
theorem pureCommandsIgnoreBuffer : Obligations.PureCommandsIgnoreBuffer := by
  unfold Obligations.PureCommandsIgnoreBuffer
  constructor
  · rintro i f s t s' (rfl | rfl) hl' hL h
    · obtain ⟨_, hlen, rfl⟩ := execValid_next h
      exact ⟨_, rfl, execValid_of_length hl' (hlen.trans hL.symm)⟩
    · obtain ⟨_, hlen, rfl⟩ := execDecode_next h
      exact ⟨_, rfl, execDecode_of_length hl' (hlen.trans hL.symm)⟩
  · intro s t h
    obtain ⟨_, rfl⟩ := execUtil_next h
    rfl

end Sys2Proof.Machine
end

section
/-! SUPPORT. The increment, the outcome codes and the named stops (40_index_counter R100, 60_exceptions R167, 93_implementation_defined U10, U11). -/

namespace Sys2Proof.Machine

variable {i : Instr} {s : State} {f : List Byte}

/-- Settles O14, by what `k` increments do. -/
theorem incrementIsCyclic : Obligations.IncrementIsCyclic := by
  unfold Obligations.IncrementIsCyclic
  intro C i h
  refine ⟨?wraps, incIndex_iterate h, ?cycle⟩
  case wraps => rw [incIndex, Nat.sub_add_cancel (by omega), Nat.mod_self]
  case cycle => rw [incIndex_iterate h, Nat.add_mod_right, Nat.mod_eq_of_lt h]

/-- Settles O49, by the tables of codes and bits. -/
theorem outcomeCodesAndBits : Obligations.OutcomeCodesAndBits := by
  unfold Obligations.OutcomeCodesAndBits
  exact ⟨rfl, rfl, rfl, fun _ => rfl, rfl, fun _ => rfl⟩

theorem configured_of_not_legal {α : Type} (h : ¬s.cfg.Legal) (body : Result α) :
    configured s body = .refused .illegalConfiguration := if_neg h

theorem exec_of_not_legal (h : ¬s.cfg.Legal) : exec i s = .refused .illegalConfiguration := by
  cases i <;> exact configured_of_not_legal h _

theorem frameOperand_of_length_ne {α : Type} (h : f.length ≠ s.cfg.frameLen) (body : Result α) :
    frameOperand f s body = .refused (.frameLength f.length) := if_neg h

/-- Settles O50, by the three tests that stop the model. -/
theorem modelStopsByName : Obligations.ModelStopsByName := by
  unfold Obligations.ModelStopsByName
  refine ⟨fun i s h => ⟨exec_of_not_legal h, configured_of_not_legal h _⟩, fun s f hl hlen => ?length, fun s a b ha => ?slot⟩
  case length =>
    exact ⟨(configured_of_legal hl _).trans (frameOperand_of_length_ne hlen _),
      (configured_of_legal hl _).trans (frameOperand_of_length_ne hlen _)⟩
  case slot => exact ⟨if_neg (Nat.not_lt.mpr ha), if_neg (Nat.not_lt.mpr ha)⟩

/-- Settles O16: a chunk of one byte is one stored byte, whatever `count` is. -/
theorem overflowingByteIsStored : Obligations.OverflowingByteIsStored := by
  unfold Obligations.OverflowingByteIsStored
  intro s b hs hroom
  refine ⟨_, execWrite_of_ready hs [b] hroom, ?_, ?_, fun a ha => ?_⟩
  · apply State.ext_fields <;> simp [incIndex, ovfBit]
  · simp
  · simpa using Memory.read_write_other _ _ ha

end Sys2Proof.Machine
end

section
/-! SUPPORT. Sequences of commands (41_buffer_ops R118 to R120, 30_encoding R89): the responses given before a command do not matter to it, so
WRITEs in a row store what one WRITE of their chunks stores. -/

namespace Sys2Proof.Machine

variable {s t : State} {a b data : List Byte} {n : Nat}

theorem storedByte_withResponses (q : List Response) (b : Byte) :
    (s.withResponses q).storedByte b = (s.storedByte b).withResponses q := by
  apply State.ext_fields <;> simp

theorem stored_withResponses (q : List Response) (data : List Byte) :
    (s.withResponses q).stored data = (s.stored data).withResponses q := by
  induction data generalizing s with
  | nil => rfl
  | cons b data ih => rw [stored_cons, storedByte_withResponses, ih, stored_cons]

/-- WRITE behind any responses: the chunk stored, and one response more. -/
theorem execWrite_withResponses (hs : s.Ready) (hroom : s.Room data.length) (q : List Response) :
    exec (.write data) (s.withResponses q) = .next ((s.stored data).withResponses (q ++ [.pos (s.stored data).wr])) := by
  rw [execWrite_of_ready (s := s.withResponses q) hs data hroom, stored_withResponses]
  rfl

/-- POLL behind any responses: the extraction from the chunk stored, and one response more. -/
theorem execPoll_withResponses {r : Option (List Byte)} (hs : s.Ready) (hroom : s.Room data.length) (q : List Response)
    (he : extractFrame (s.stored data) = .next (r, t)) :
    exec (.poll data) (s.withResponses q) = .next (t.withResponses (q ++ [pollResponse r])) := by
  have hpoll := extractFrame_withResponses q he
  rw [← stored_withResponses] at hpoll
  exact execPoll_of_extract (s := s.withResponses q) hs hroom hpoll

theorem room_append_left (h : s.Room (a ++ b).length) : s.Room a.length := room_left (by rwa [← List.length_append])

theorem room_append_right (h : s.Room (a ++ b).length) : (s.stored a).Room b.length := room_stored (by rwa [← List.length_append])

/-- Settles O17, since storing one chunk and then another is storing both. -/
theorem writesConcatenate : Obligations.WritesConcatenate := by
  unfold Obligations.WritesConcatenate
  intro s a b hs hroom
  refine ⟨_, _, _, .pos (s.stored a).wr, _, execWrite_withResponses hs (room_append_left hroom) s.responses,
    execWrite_withResponses (ready_stored hs a) (room_append_right hroom) _, execWrite_withResponses hs hroom s.responses, rfl, ?_⟩
  rw [stored_append, List.append_assoc]
  rfl

/-- The responses of WRITEs in a row: the write cursor's position after each. -/
def writePositions : List (List Byte) → State → List Response
  | [], _ => []
  | chunk :: chunks, s => .pos (s.stored chunk).wr :: writePositions chunks (s.stored chunk)

theorem writePositions_getLast? {chunks : List (List Byte)} (h : chunks ≠ []) :
    (writePositions chunks s).getLast? = some (.pos (s.stored chunks.flatten).wr) := by
  induction chunks generalizing s with
  | nil => exact absurd rfl h
  | cons chunk chunks ih =>
    cases chunks with
    | nil => simp [writePositions]
    | cons next chunks =>
      rw [List.flatten_cons, stored_append, ← ih (List.cons_ne_nil _ _), writePositions, writePositions, List.getLast?_cons_cons]

/-- WRITEs in a row store their chunks in order. -/
theorem execAll_write (hs : s.Ready) (chunks : List (List Byte)) (hroom : s.Room chunks.flatten.length) (q : List Response) :
    execAll (chunks.map .write) (s.withResponses q) =
      .next ((s.stored chunks.flatten).withResponses (q ++ writePositions chunks s)) := by
  induction chunks generalizing s q with
  | nil => simp [execAll, writePositions]
  | cons chunk chunks ih =>
    rw [List.flatten_cons] at hroom ⊢
    rw [List.map_cons, execAll, execWrite_withResponses hs (room_append_left hroom), andThen_next,
      ih (ready_stored hs chunk) (room_append_right hroom), stored_append, writePositions, List.append_assoc]
    rfl

theorem execAll_append (first second : List Instr) :
    execAll (first ++ second) s = andThen (execAll first s) (execAll second) := by
  induction first generalizing s with
  | nil => rfl
  | cons i first ih =>
    rw [List.cons_append, execAll, execAll, andThen_assoc]
    congr 1
    exact funext fun t => ih

theorem execAll_singleton (i : Instr) : execAll [i] s = exec i s := by
  rw [execAll]
  cases exec i s <;> rfl

/-! The assembler's cuts (R89). -/

theorem splitChunk_flatten : (splitChunk n data).flatten = data := by
  induction n generalizing data with
  | zero => simp [splitChunk]
  | succ n ih =>
    rw [splitChunk]
    split
    · simp
    · rw [List.flatten_cons, ih, List.take_append_drop]

theorem splitChunk_ne_nil : splitChunk n data ≠ [] := by
  cases n with
  | zero => simp [splitChunk]
  | succ n => rw [splitChunk]; split <;> simp

/-- With a cut for every byte beyond 255, no piece is longer than a packet can carry. -/
theorem length_le_of_mem_splitChunk (hn : data.length ≤ 255 + n) : ∀ chunk ∈ splitChunk n data, chunk.length ≤ 255 := by
  induction n generalizing data with
  | zero => simpa [splitChunk] using hn
  | succ n ih =>
    rw [splitChunk]
    split
    next hshort => simpa using hshort
    next hlong => exact List.forall_mem_cons.mpr ⟨List.length_take_le _ _, ih (by rw [List.length_drop]; omega)⟩

theorem wellFormed_of_mem_pseudoWrite {L : Nat} {i : Instr} (hi : i ∈ pseudoWrite data) : i.wellFormed L = true := by
  obtain ⟨chunk, hchunk, rfl⟩ := List.mem_map.mp hi
  exact decide_eq_true (length_le_of_mem_splitChunk (Nat.le_add_left _ _) chunk hchunk)

theorem wellFormed_poll {L : Nat} (h : data.length ≤ 255) : (Instr.poll data).wellFormed L = true := decide_eq_true h

/-- The packets of a long WRITE store its bytes. -/
theorem execAll_pseudoWrite (hs : s.Ready) (hroom : s.Room data.length) (q : List Response) :
    execAll (pseudoWrite data) (s.withResponses q) =
      .next ((s.stored data).withResponses (q ++ writePositions (splitChunk data.length data) s)) := by
  have h := execAll_write hs (splitChunk data.length data) (by rwa [splitChunk_flatten]) q
  rwa [splitChunk_flatten] at h

/-- Settles O18: the cuts joined are the chunk, and the last of them ends where it ends. -/
theorem longWriteIsUndivided : Obligations.LongWriteIsUndivided := by
  unfold Obligations.LongWriteIsUndivided
  intro s data hs hroom
  refine ⟨fun i hi => wellFormed_of_mem_pseudoWrite hi, _, _, execWrite_withResponses hs hroom s.responses,
    execAll_pseudoWrite hs hroom s.responses, rfl, ?_⟩
  simp only [State.withResponses_responses, List.getLast?_append, writePositions_getLast? splitChunk_ne_nil, splitChunk_flatten]
  rfl

/-- WRITE of one chunk and POLL of the next are one POLL of both, but for WRITE's response (44_pipeline R151). -/
theorem execPoll_append {r : Option (List Byte)} (hs : s.Ready) (hroom : s.Room (a ++ b).length) (q : List Response)
    (he : extractFrame (s.stored (a ++ b)) = .next (r, t)) :
    exec (.poll b) ((s.stored a).withResponses q) = .next (t.withResponses (q ++ [pollResponse r])) :=
  execPoll_withResponses (ready_stored hs a) (room_append_right hroom) q (by rwa [← stored_append])

/-- Settles O37, by that law; and from reset two frames in one chunk tell one POLL from two. -/
theorem writeThenPollIsOnePoll : Obligations.WriteThenPollIsOnePoll := by
  unfold Obligations.WriteThenPollIsOnePoll
  constructor
  · intro s a b hs hroom
    obtain ⟨r, t, he⟩ := extractFrame_of_ready (ready_stored hs (a ++ b))
    refine ⟨_, _, _, .pos (s.stored a).wr, _, execWrite_withResponses hs (room_append_left hroom) s.responses, execPoll_append hs hroom _ he,
      execPoll_withResponses hs hroom s.responses he, rfl, ?_⟩
    rw [List.append_assoc]
    rfl
  · exact ⟨State.resetWith ⟨4, 2, none⟩, _, _, _, [1, 0, 1, 0], [], inv_resetWith (by decide), rfl, rfl, rfl, by decide⟩

/-- The packets of a long WRITE, then one POLL, are one POLL of all the bytes, but for the responses before the last. -/
theorem execAll_pseudoWrite_poll {r : Option (List Byte)} (hs : s.Ready) (hroom : s.Room (a ++ b).length) (q : List Response)
    (he : extractFrame (s.stored (a ++ b)) = .next (r, t)) :
    execAll (pseudoWrite a ++ [.poll b]) (s.withResponses q) =
      .next (t.withResponses (q ++ writePositions (splitChunk a.length a) s ++ [pollResponse r])) := by
  rw [execAll_append, execAll_pseudoWrite hs (room_append_left hroom), andThen_next, execAll_singleton, execPoll_append hs hroom _ he]

/-- Settles O38: up to 255 bytes it is the POLL itself; beyond, all but the last 255 bytes go before it as WRITEs. -/
theorem longPollIsUndivided : Obligations.LongPollIsUndivided := by
  unfold Obligations.LongPollIsUndivided
  intro s data hs hroom
  obtain ⟨r, t, he⟩ := extractFrame_of_ready (ready_stored hs data)
  have hpoll := execPoll_withResponses hs hroom s.responses he
  unfold pseudoPoll
  split
  next hshort =>
    refine ⟨fun i hi => ?_, _, _, hpoll, (execAll_singleton (.poll data)).trans hpoll, rfl, rfl⟩
    rw [List.mem_singleton.mp hi]
    exact wellFormed_poll hshort
  next hlong =>
    have hjoin : data.take (data.length - 255) ++ data.drop (data.length - 255) = data := List.take_append_drop _ _
    have hall := execAll_pseudoWrite_poll (a := data.take (data.length - 255)) (b := data.drop (data.length - 255)) hs
      (by rwa [hjoin]) s.responses (by rw [hjoin]; exact he)
    refine ⟨fun i hi => ?_, _, _, hpoll, hall, rfl, ?_⟩
    · rcases List.mem_append.mp hi with hi | hi
      · exact wellFormed_of_mem_pseudoWrite hi
      · rw [List.mem_singleton.mp hi]
        exact wellFormed_poll (by rw [List.length_drop]; omega)
    · simp

end Sys2Proof.Machine
end

section
/-! SUPPORT. Runs from reset (41_buffer_ops R119, R120, 44_pipeline R153): what WRITEs put in, UTIL counts, READs give back and POLLs decode. -/

namespace Sys2Proof.Machine

variable {c : Config} {s : State} {data f : List Byte} {k n : Nat}

/-- After reset there is room for what fits the register of `count`. -/
theorem room_resetWith (h : c.holdsCount n = true) : (State.resetWith c).Room n := .inr (by simpa using h)

/-- As many bytes as `C` fit it (R23). -/
theorem room_resetWith_of_le (hl : c.Legal) (h : n ≤ c.capacity) : (State.resetWith c).Room n := by
  obtain ⟨_, _, hheld⟩ := hl
  exact room_resetWith (holdsCount_mono h hheld)

/-- Up to `C` bytes after reset set no FAULT bit. -/
theorem faultReg_stored_resetWith (h : data.length ≤ c.capacity) : ((State.resetWith c).stored data).faultReg = 0 := by
  rw [stored_faultReg, if_neg (by simpa using fun _ => h)]
  rfl

theorem unread_stored_resetWith (hl : c.Legal) (h : data.length ≤ c.capacity) : ((State.resetWith c).stored data).unread = data :=
  unread_stored (inv_resetWith hl) (by simpa using h)

/-- The state after WRITEs from reset. -/
def afterWrites (c : Config) (chunks : List (List Byte)) : State :=
  ((State.resetWith c).stored chunks.flatten).withResponses (writePositions chunks (State.resetWith c))

variable {chunks : List (List Byte)}

theorem afterWrites_cfg : (afterWrites c chunks).cfg = c := stored_cfg _

theorem afterWrites_count : (afterWrites c chunks).count = chunks.flatten.length := (stored_count _).trans (Nat.zero_add _)

theorem afterWrites_faultReg (hfit : chunks.flatten.length ≤ c.capacity) : (afterWrites c chunks).faultReg = 0 :=
  faultReg_stored_resetWith hfit

theorem afterWrites_ready (hl : c.Legal) : (afterWrites c chunks).Ready := ready_stored (inv_resetWith hl).ready chunks.flatten

theorem afterWrites_unread (hl : c.Legal) (hfit : chunks.flatten.length ≤ c.capacity) : (afterWrites c chunks).unread = chunks.flatten :=
  unread_stored_resetWith hl hfit

theorem execAll_write_resetWith (hl : c.Legal) (hheld : c.holdsCount chunks.flatten.length = true) :
    execAll (chunks.map .write) (State.resetWith c) = .next (afterWrites c chunks) :=
  execAll_write (inv_resetWith hl).ready chunks (room_resetWith hheld) []

/-- Settles O22: the WRITEs leave `count` at the number of bytes, and UTIL responds with it. -/
theorem utilisationAfterWrites : Obligations.UtilisationAfterWrites := by
  unfold Obligations.UtilisationAfterWrites
  intro c chunks hl hheld
  have hutil := execUtil_of_legal (s := afterWrites c chunks) (by rwa [afterWrites_cfg])
  rw [afterWrites_count, afterWrites_cfg] at hutil
  have hrun := execAll_append (s := State.resetWith c) (chunks.map .write) [.util]
  rw [execAll_write_resetWith hl hheld, andThen_next, execAll_singleton, hutil] at hrun
  refine ⟨_, _, hrun, List.getLast?_concat, fun hfit => ?_, rfl⟩
  rw [afterWrites_faultReg hfit]
  rfl

/-- READs in a row take the bytes ahead in order. -/
theorem execAll_drain (hs : s.Ready) (hn : n ≤ s.count) :
    execAll (pseudoDrain n) s = .next ((s.consumed n).withResponses (s.responses ++ (s.ahead n).map .byte)) := by
  induction n generalizing s with
  | zero =>
    have ⟨_, hrd, _⟩ := hs
    rw [consumed_zero hrd, State.ahead, List.range_zero, List.map_nil, List.map_nil, List.append_nil]
    rfl
  | succ n ih =>
    have ⟨hl, hrd, hwr⟩ := hs
    have hs1 : (s.consumed 1).Ready := ⟨hl, Nat.mod_lt _ hl.1, hwr⟩
    have hn1 : n ≤ (s.consumed 1).count := by
      rw [State.consumed_count]
      omega
    rw [pseudoDrain, List.replicate_succ, execAll, execRead_of_nonempty hs (by omega), andThen_next]
    refine (ih (s := (s.consumed 1).respond (.byte (s.byteAt s.rd))) hs1 hn1).trans ?_
    rw [ahead_succ' n hrd, Nat.add_comm n 1, ← consumed_consumed 1 n hrd, List.map_cons, List.append_cons]
    rfl

/-- Settles O47: the WRITEs leave the bytes unread in order, and the READs take them. -/
theorem bufferRoundTrip : Obligations.BufferRoundTrip := by
  unfold Obligations.BufferRoundTrip
  intro c chunks hl hfit
  have ⟨_, _, hheld⟩ := hl
  have hcount : chunks.flatten.length ≤ (afterWrites c chunks).count := Nat.le_of_eq afterWrites_count.symm
  have hdrain := execAll_drain (afterWrites_ready hl) hcount
  rw [← take_unread hcount, afterWrites_unread hl hfit, List.take_length] at hdrain
  refine ⟨_, _, execAll_write_resetWith hl (holdsCount_mono hfit hheld), afterWrites_count, hdrain, rfl, ?_, afterWrites_faultReg hfit⟩
  exact Nat.sub_eq_zero_of_le (Nat.le_of_eq afterWrites_count)

/-- A valid frame's first byte is a pointer. -/
theorem getElem?_zero_ne_of_validFrame (h : validFrame f = true) : f[0]? ≠ some 0 := by
  intro hzero
  obtain ⟨_, first, hfirst, hwalk⟩ := validFrame_iff.mp h
  obtain rfl : first = 0 := Option.some.inj (hfirst.symm.trans hzero)
  cases chainWalk_at_zero.symm.trans hwalk

/-- Bytes that stand at the front of the queue and end in their only zero are the frame that an extraction takes. -/
theorem extractFrame_of_unread {rest : List Byte} (hs : s.Ready) (hlen : f.length = s.cfg.frameLen) (hunread : s.unread = f ++ rest)
    (hlast : f[f.length - 1]? = some 0) (hnz : ∀ k < f.length - 1, f[k]? ≠ some 0) :
    extractFrame s = .next (some f, s.consumed f.length) := by
  have ⟨⟨_, hL, _⟩, _⟩ := hs
  have hc : s.cfg.frameLen ≤ s.count := by
    rw [← unread_length, hunread, List.length_append]
    omega
  have hfront : s.ahead s.cfg.frameLen = f := by rw [← take_unread hc, hunread, ← hlen, List.take_left]
  have hat {k : Nat} (hk : k < s.cfg.frameLen) : f[k]? = some (s.aheadByte k) := by
    rw [← hfront, ahead_getElem?, if_pos hk]
  rw [hlen] at hlast hnz ⊢
  rw [hat (by omega), Option.some.injEq] at hlast
  have hbefore (k : Nat) (hk : k < s.cfg.frameLen - 1) : s.aheadByte k ≠ 0 := by
    have := hnz k hk
    rwa [hat (by omega), ne_eq, Option.some.injEq] at this
  rw [extractFrame_of_firstZero hs hc (by omega) hlast hbefore, Nat.sub_add_cancel (by omega), if_pos rfl, hfront]

/-- POLL responds with no frame, a raw frame or a record. -/
theorem pollResponse_cases (r : Option (List Byte)) :
    pollResponse r = .noFrame ∨ (∃ raw, pollResponse r = .malformed raw) ∨ ∃ out, pollResponse r = .record out := by
  cases r with
  | none => exact .inl rfl
  | some f =>
    by_cases h : validFrame f = true
    · exact .inr (.inr ⟨_, decodeResponse_of_valid h⟩)
    · exact .inr (.inl ⟨_, decodeResponse_of_invalid h⟩)

/-- A valid frame has its only zero last when its interior has none. -/
theorem getElem?_ne_zero_of_validFrame (h : validFrame f = true) (hinterior : ∀ k, 1 ≤ k → k < f.length - 1 → f[k]? ≠ some 0)
    (k : Nat) (hk : k < f.length - 1) : f[k]? ≠ some 0 := by
  rcases Nat.eq_zero_or_pos k with rfl | hpos
  · exact getElem?_zero_ne_of_validFrame h
  · exact hinterior k hpos hk

/-- Settles O40: the frame stands at the front of the queue and decodes, the garbage is left, and NEXT answers as any POLL does. -/
theorem oneFrameThenGarbage : Obligations.OneFrameThenGarbage := by
  unfold Obligations.OneFrameThenGarbage
  intro c f garbage hl hlen hvalid hinterior hfit
  rw [← hlen] at hinterior
  have hbytes : (f ++ garbage).length ≤ c.capacity := by rwa [List.length_append, hlen]
  have hroom := room_resetWith_of_le hl hbytes
  have hinv := inv_stored (inv_resetWith hl) (f ++ garbage) hroom
  have hunread := unread_stored_resetWith hl hbytes
  have hframe := extractFrame_of_unread hinv.ready (by simpa using hlen) hunread (validFrame_iff.mp hvalid).1
    (getElem?_ne_zero_of_validFrame hvalid hinterior)
  have hpoll := execPoll_withResponses (inv_resetWith hl).ready hroom [] hframe
  rw [pollResponse, decodeResponse_of_valid hvalid] at hpoll
  have hinv' := inv_consumed hinv (m := f.length) (by simp)
  have hunread' := unread_consumed hinv.ready.2.1 f.length
  rw [hunread, List.drop_left] at hunread'
  have hcount : (((State.resetWith c).stored (f ++ garbage)).consumed f.length).count = garbage.length := by
    rw [← unread_length, hunread']
  obtain ⟨r, u, hu⟩ := extractFrame_of_ready hinv'.ready
  have hnext := execPoll_withResponses (data := []) hinv'.ready (.inl rfl) [.record (unstuff f)] hu
  refine ⟨_, _, pollResponse r, hpoll, rfl, hcount, hunread', faultReg_stored_resetWith hbytes,
    (execAll_singleton (.poll [])).trans hnext, rfl, fun hshort => ?_, pollResponse_cases r⟩
  cases (extractFrame_of_short (by simpa [hcount] using hshort)).symm.trans hu
  rfl

end Sys2Proof.Machine
end

section
/-! SUPPORT. Refusals of `count`'s width (92 D7, 93 U4): only storing a chunk makes one, so only WRITE and POLL do. -/

namespace Sys2Proof.Machine

variable {i : Instr} {s t : State} {data : List Byte} {w n : Nat}

/-- A sequence is refused just when its first part is, or its second from what the first hands on. -/
theorem andThen_eq_refused {α β : Type} {o : Result α} {k : α → Result β} {r : Refusal} :
    andThen o k = .refused r ↔ o = .refused r ∨ ∃ a, o = .next a ∧ k a = .refused r := by
  cases o <;> simp

theorem configured_eq_refused_countWidth {α : Type} {body : Result α} (h : configured s body = .refused (.countWidth w)) :
    s.cfg.Legal ∧ body = .refused (.countWidth w) := by
  unfold configured at h
  split at h
  next hl => exact ⟨hl, h⟩
  next => cases h

theorem frameOperand_eq_refused_countWidth {α : Type} {f : List Byte} {body : Result α}
    (h : frameOperand f s body = .refused (.countWidth w)) : body = .refused (.countWidth w) := by
  unfold frameOperand at h
  split at h
  next => exact h
  next => cases h

theorem counted_eq_refused {α : Type} {body : Result α} (h : counted n s body = .refused (.countWidth w)) :
    (s.cfg.countWidth = some w ∧ 2 ^ w ≤ n) ∨ body = .refused (.countWidth w) := by
  unfold counted at h
  split at h
  next => exact .inr h
  next v hv =>
    split at h
    next => exact .inr h
    next hfull =>
      cases h
      exact .inl ⟨hv, Nat.le_of_not_lt hfull⟩

theorem memRead_ne_refused {a : Nat} {r : Refusal} : memRead a s ≠ .refused r := by
  unfold memRead
  split <;> simp

theorem memWrite_ne_refused {a : Nat} {b : Byte} {r : Refusal} : memWrite a b s ≠ .refused r := by
  unfold memWrite
  split <;> simp

theorem read1_ne_refused {r : Refusal} : read1 s ≠ .refused r := by
  intro h
  rcases andThen_eq_refused.mp h with h | ⟨b, _, h⟩
  · exact memRead_ne_refused h
  · rcases andThen_eq_refused.mp h with h | ⟨t, _, h⟩
    · exact memWrite_ne_refused h
    · cases h

theorem readToZero_ne_refused {budget : Nat} {got : List Byte} {r : Refusal} : readToZero budget got s ≠ .refused r := by
  induction budget generalizing got s with
  | zero => rintro ⟨⟩
  | succ budget ih =>
    intro h
    rcases andThen_eq_refused.mp h with h | ⟨found, _, h⟩
    · exact read1_ne_refused h
    · split at h
      next => cases h
      next => exact ih h

theorem extractFrame_ne_refused {r : Refusal} : extractFrame s ≠ .refused r := by
  intro h
  unfold extractFrame at h
  split at h
  next => cases h
  next =>
    rcases andThen_eq_refused.mp h with h | ⟨found, _, h⟩
    · exact readToZero_ne_refused h
    · split at h <;> cases h

theorem storeByte_eq_refused {b : Byte} (h : storeByte b s = .refused (.countWidth w)) :
    s.cfg.countWidth = some w ∧ 2 ^ w ≤ s.count + 1 := by
  rcases counted_eq_refused h with hfull | h
  · exact hfull
  · rcases andThen_eq_refused.mp h with h | ⟨t, _, h⟩
    · exact absurd h memWrite_ne_refused
    · cases h

/-- Storing a chunk is refused only where `count` would outgrow its register. -/
theorem storeChunk_eq_refused (h : storeChunk data s = .refused (.countWidth w)) :
    data ≠ [] ∧ s.cfg.countWidth = some w ∧ 2 ^ w ≤ s.count + data.length := by
  induction data generalizing s with
  | nil => cases h
  | cons b data ih =>
    refine ⟨List.cons_ne_nil _ _, ?_⟩
    rw [List.length_cons]
    rcases andThen_eq_refused.mp h with h | ⟨t, ht, h⟩
    · obtain ⟨hw, hfull⟩ := storeByte_eq_refused h
      exact ⟨hw, by omega⟩
    · obtain ⟨_, _, rfl⟩ := storeByte_eq_next.mp ht
      obtain ⟨_, hw, hfull⟩ := ih h
      rw [storedByte_cfg] at hw
      rw [storedByte_count] at hfull
      exact ⟨hw, by omega⟩

/-- A command refused for the width of `count` is a WRITE or a POLL whose bytes would take `count` beyond it. -/
theorem exec_eq_refused_countWidth (h : exec i s = .refused (.countWidth w)) :
    s.cfg.Legal ∧ bytesWritten i ≠ [] ∧ s.cfg.countWidth = some w ∧ 2 ^ w ≤ s.count + (bytesWritten i).length := by
  cases i with
  | write data =>
    obtain ⟨hl, h⟩ := configured_eq_refused_countWidth h
    rcases andThen_eq_refused.mp h with h | ⟨t, _, h⟩
    · exact ⟨hl, storeChunk_eq_refused h⟩
    · cases h
  | poll data =>
    obtain ⟨hl, h⟩ := configured_eq_refused_countWidth h
    rcases andThen_eq_refused.mp h with h | ⟨t, _, h⟩
    · exact ⟨hl, storeChunk_eq_refused h⟩
    · rcases andThen_eq_refused.mp h with h | ⟨found, _, h⟩
      · exact absurd h extractFrame_ne_refused
      · cases h
  | read =>
    obtain ⟨_, h⟩ := configured_eq_refused_countWidth h
    split at h
    next => cases h
    next =>
      rcases andThen_eq_refused.mp h with h | ⟨found, _, h⟩
      · exact absurd h read1_ne_refused
      · cases h
  | util =>
    obtain ⟨_, ⟨⟩⟩ := configured_eq_refused_countWidth h
  | frame =>
    obtain ⟨_, h⟩ := configured_eq_refused_countWidth h
    rcases andThen_eq_refused.mp h with h | ⟨found, _, h⟩
    · exact absurd h extractFrame_ne_refused
    · cases h
  | valid f =>
    obtain ⟨_, h⟩ := configured_eq_refused_countWidth h
    cases frameOperand_eq_refused_countWidth h
  | decode f =>
    obtain ⟨_, h⟩ := configured_eq_refused_countWidth h
    cases frameOperand_eq_refused_countWidth h

/-- Beyond the register of `count` there is an overflow, since the register holds `C` (R23). -/
theorem capacity_lt_of_full (hl : s.cfg.Legal) (hw : s.cfg.countWidth = some w) (hfull : 2 ^ w ≤ n) : s.cfg.capacity < n := by
  obtain ⟨_, _, hheld⟩ := hl
  exact (lt_two_pow_of_holdsCount hw hheld).trans_le hfull

/-- Settles O51: storing is refused just where `count` would outgrow its register, and nothing else is refused for that. -/
theorem countBeyondItsWidthIsRefused : Obligations.CountBeyondItsWidthIsRefused := by
  unfold Obligations.CountBeyondItsWidthIsRefused
  constructor
  · intro s data w hs hw hcount hfull
    exact ⟨execWrite_of_full hs hw hcount hfull, execPoll_of_full hs hw hcount hfull⟩
  · intro i s w h
    obtain ⟨hl, hne, hw, hfull⟩ := exec_eq_refused_countWidth h
    exact ⟨hw, ⟨_, writes_of_bytesWritten_ne_nil hne⟩, hfull, capacity_lt_of_full hl hw hfull⟩

end Sys2Proof.Machine
end

section
/-! SUPPORT. Progress (60_exceptions R171): where each command a packet can carry completes, and what the one stop is. -/

namespace Sys2Proof.Machine

variable {i : Instr} {s : State} {n : Nat}

/-- A command completes from cursors in range, when `count` has room for the bytes it writes and an operand frame has `L` bytes. -/
theorem exec_of_room (hs : s.Ready) (hlen : ∀ f, i = .valid f ∨ i = .decode f → f.length = s.cfg.frameLen)
    (hroom : s.Room (bytesWritten i).length) : ∃ t, exec i s = .next t := by
  have ⟨hl, _⟩ := hs
  cases i with
  | write data => exact ⟨_, execWrite_of_ready hs data hroom⟩
  | read =>
    by_cases h0 : s.count = 0
    · exact ⟨_, execRead_of_empty hl h0⟩
    · exact ⟨_, execRead_of_nonempty hs h0⟩
  | util => exact ⟨_, execUtil_of_legal hl⟩
  | frame =>
    obtain ⟨r, u, hu⟩ := extractFrame_of_ready hs
    exact ⟨_, execFrame_of_extract hl hu⟩
  | valid f => exact ⟨_, execValid_of_length hl (hlen f (.inl rfl))⟩
  | decode f => exact ⟨_, execDecode_of_length hl (hlen f (.inr rfl))⟩
  | poll data =>
    obtain ⟨r, u, hu⟩ := extractFrame_of_ready (ready_stored hs data)
    exact ⟨_, execPoll_of_extract hs hroom hu⟩

/-- An operand frame that a packet carries has `L` bytes (30_encoding R79). -/
theorem length_of_wellFormed {L : Nat} (hwf : i.wellFormed L = true) (f : List Byte) (hi : i = .valid f ∨ i = .decode f) :
    f.length = L := by
  rcases hi with rfl | rfl <;> exact of_decide_eq_true hwf

/-- Where there is no room, `count` has a width and the bytes go beyond it. -/
theorem full_of_not_room (h : ¬s.Room n) : n ≠ 0 ∧ ∃ w, s.cfg.countWidth = some w ∧ 2 ^ w ≤ s.count + n := by
  obtain ⟨hn, hheld⟩ := not_or.mp h
  unfold Config.holdsCount at hheld
  split at hheld
  next => exact absurd rfl hheld
  next w hw => exact ⟨hn, w, hw, by simpa using hheld⟩

/-- Without room the command is refused by the width of `count`. -/
theorem exec_of_not_room (h : s.Inv) (hroom : ¬s.Room (bytesWritten i).length) :
    ∃ w, s.cfg.countWidth = some w ∧ exec i s = .refused (.countWidth w) := by
  obtain ⟨hne, w, hw, hfull⟩ := full_of_not_room hroom
  have hcount := lt_two_pow_of_holdsCount hw h.held
  refine ⟨w, hw, ?_⟩
  rcases writes_of_bytesWritten_ne_nil (mt List.length_eq_zero_iff.mpr hne) with hi | hi
  · rw [hi]
    exact execWrite_of_full h.ready hw hcount hfull
  · rw [hi]
    exact execPoll_of_full h.ready hw hcount hfull

/-- A step completes unless the command in front has no room for its bytes. -/
theorem step_of_room (h : s.Inv) (hroom : ∀ i rest, decode s.cfg.frameLen s.port = some (.command i, rest) → s.Room (bytesWritten i).length) :
    ∃ t, step s = .next t := by
  have ⟨hl, _⟩ := h.ready
  rcases hdecode : decode s.cfg.frameLen s.port with _ | ⟨i | b, rest⟩
  · exact ⟨s, step_of_incomplete hl hdecode⟩
  · rw [step_of_command hl hdecode]
    exact exec_of_room (s := s.withPort rest) h.ready (length_of_wellFormed (sound_of_decode hdecode).1) (hroom i rest hdecode)
  · exact ⟨_, step_of_illegal hl hdecode⟩

/-- Settles O12, by whether the command in front has room for its bytes, which it has where `count` has no width. -/
theorem stepAlwaysAnswers : Obligations.StepAlwaysAnswers := by
  unfold Obligations.StepAlwaysAnswers
  intro s h
  refine ⟨fun hnone => step_of_room h fun i rest _ => ?_, step_of_room h, ?_⟩
  · by_contra hroom
    obtain ⟨_, w, hw, _⟩ := full_of_not_room hroom
    rw [hnone] at hw
    cases hw
  · by_cases hroom : ∀ i rest, decode s.cfg.frameLen s.port = some (.command i, rest) → s.Room (bytesWritten i).length
    · exact .inl (step_of_room h hroom)
    · simp only [not_forall] at hroom
      obtain ⟨i, rest, hdecode, hroom⟩ := hroom
      rw [step_of_command h.ready.1 hdecode]
      exact .inr (exec_of_not_room (inv_withPort h rest) hroom)

end Sys2Proof.Machine
end

section
/-! SUPPORT. What the commands do not look at: FAULT (10_state R27) and the width of `count` (R23). A relation between two states that every
operation keeps, and that hides only such fields, is a simulation: the second core performs what the first does. -/

namespace Sys2Proof.Machine

variable {R : State → State → Prop} {i : Instr} {s s' t : State} {f : BitVec 3} {data : List Byte} {w : Nat}

/-- Related states agree on what the commands look at, and each operation leaves related states related. -/
structure Simulation (R : State → State → Prop) : Prop where
  legal : ∀ {s s'}, R s s' → s.cfg.Legal → s'.cfg.Legal
  held : ∀ {s s' n}, R s s' → s.cfg.holdsCount n = true → s'.cfg.holdsCount n = true
  capacity : ∀ {s s'}, R s s' → s'.cfg.capacity = s.cfg.capacity
  frameLen : ∀ {s s'}, R s s' → s'.cfg.frameLen = s.cfg.frameLen
  rd : ∀ {s s'}, R s s' → s'.rd = s.rd
  wr : ∀ {s s'}, R s s' → s'.wr = s.wr
  count : ∀ {s s'}, R s s' → s'.count = s.count
  storage : ∀ {s s'}, R s s' → s'.storage = s.storage
  storedByte : ∀ {s s'} (b : Byte), R s s' → R (s.storedByte b) (s'.storedByte b)
  consumed : ∀ {s s'}, R s s' → R (s.consumed 1) (s'.consumed 1)
  respond : ∀ {s s'} (v : Response), R s s' → R (s.respond v) (s'.respond v)
  setFault : ∀ {s s'} (bit : BitVec 3), R s s' → R (s.setFault bit) (s'.setFault bit)

theorem Simulation.storeChunk (hR : Simulation R) (h : R s s') (ht : storeChunk data s = .next t) :
    ∃ t', Machine.storeChunk data s' = .next t' ∧ R t t' := by
  induction data generalizing s s' with
  | nil => cases ht; exact ⟨s', rfl, h⟩
  | cons b data ih =>
    obtain ⟨u, hu, ht⟩ := andThen_eq_next.mp ht
    obtain ⟨hheld, hwr, rfl⟩ := storeByte_eq_next.mp hu
    have hu' : storeByte b s' = .next (s'.storedByte b) := by
      refine storeByte_eq_next.mpr ⟨?_, ?_, rfl⟩
      · rw [hR.count h]
        exact hR.held h hheld
      · rwa [hR.wr h, hR.capacity h]
    rw [Machine.storeChunk, hu', andThen_next]
    exact ih (hR.storedByte b h) ht

theorem Simulation.read1 (hR : Simulation R) (h : R s s') {b : Byte} (ht : read1 s = .next (b, t)) :
    ∃ t', Machine.read1 s' = .next (b, t') ∧ R t t' := by
  obtain ⟨hrd, rfl, rfl⟩ := read1_eq_next.mp ht
  refine ⟨_, read1_eq_next.mpr ⟨?_, ?_, rfl⟩, hR.consumed h⟩
  · rwa [hR.rd h, hR.capacity h]
  · rw [State.byteAt, State.byteAt, hR.storage h, hR.rd h]

theorem Simulation.readToZero (hR : Simulation R) (h : R s s') {budget : Nat} {got out : List Byte}
    (ht : readToZero budget got s = .next (out, t)) : ∃ t', Machine.readToZero budget got s' = .next (out, t') ∧ R t t' := by
  induction budget generalizing got s s' with
  | zero => cases ht; exact ⟨s', rfl, h⟩
  | succ budget ih =>
    obtain ⟨⟨b, u⟩, hread, ht⟩ := andThen_eq_next.mp ht
    obtain ⟨u', hread', hu⟩ := hR.read1 h hread
    rw [Machine.readToZero, hread', andThen_next]
    split at ht
    next hzero => cases ht; exact ⟨u', if_pos hzero, hu⟩
    next hzero => rw [if_neg hzero]; exact ih hu ht

theorem Simulation.extractFrame (hR : Simulation R) (h : R s s') {r : Option (List Byte)} (ht : extractFrame s = .next (r, t)) :
    ∃ t', Machine.extractFrame s' = .next (r, t') ∧ R t t' := by
  unfold Machine.extractFrame at ht ⊢
  rw [hR.count h, hR.frameLen h]
  split at ht
  next hshort => cases ht; exact ⟨s', if_pos hshort, h⟩
  next henough =>
    obtain ⟨⟨out, u⟩, hread, ht⟩ := andThen_eq_next.mp ht
    obtain ⟨u', hread', hu⟩ := hR.readToZero h hread
    rw [if_neg henough, hread', andThen_next]
    split at ht
    next hframe => cases ht; exact ⟨u', if_pos hframe, hu⟩
    next hframe => cases ht; exact ⟨u', if_neg hframe, hu⟩

/-- A command that does not report FAULT is performed alike from related states. -/
theorem Simulation.exec (hR : Simulation R) (h : R s s') (hi : i = .util → s'.faultReg = s.faultReg) (ht : exec i s = .next t) :
    ∃ t', Machine.exec i s' = .next t' ∧ R t t' := by
  cases i with
  | write data =>
    obtain ⟨hl, ht⟩ := configured_eq_next.mp ht
    obtain ⟨u, hu, ht⟩ := andThen_eq_next.mp ht
    obtain ⟨u', hu', hrel⟩ := hR.storeChunk h hu
    cases ht
    refine ⟨_, configured_eq_next.mpr ⟨hR.legal h hl, andThen_eq_next.mpr ⟨u', hu', rfl⟩⟩, ?_⟩
    rw [hR.wr hrel]
    exact hR.respond _ hrel
  | read =>
    obtain ⟨hl, ⟨h0, rfl⟩ | ⟨h0, hrd, rfl⟩⟩ := execRead_next ht
    · exact ⟨_, execRead_of_empty (hR.legal h hl) ((hR.count h).trans h0), hR.respond _ (hR.setFault _ h)⟩
    · obtain ⟨u', hu', hrel⟩ := hR.read1 h (read1_eq_next.mpr ⟨hrd, rfl, rfl⟩)
      refine ⟨_, configured_eq_next.mpr ⟨hR.legal h hl, ?_⟩, hR.respond _ hrel⟩
      rw [hR.count h, if_neg h0, hu', andThen_next]
  | util =>
    obtain ⟨hl, rfl⟩ := execUtil_next ht
    refine ⟨_, execUtil_of_legal (hR.legal h hl), ?_⟩
    rw [hR.count h, hR.capacity h, hi rfl]
    exact hR.respond _ h
  | frame =>
    obtain ⟨hl, r, u, hu, rfl⟩ := execFrame_next ht
    obtain ⟨u', hu', hrel⟩ := hR.extractFrame h hu
    exact ⟨_, execFrame_of_extract (hR.legal h hl) hu', hR.respond _ hrel⟩
  | valid f =>
    obtain ⟨hl, hlen, rfl⟩ := execValid_next ht
    exact ⟨_, execValid_of_length (hR.legal h hl) (hlen.trans (hR.frameLen h).symm), hR.respond _ h⟩
  | decode f =>
    obtain ⟨hl, hlen, rfl⟩ := execDecode_next ht
    exact ⟨_, execDecode_of_length (hR.legal h hl) (hlen.trans (hR.frameLen h).symm), hR.respond _ h⟩
  | poll data =>
    obtain ⟨hl, ht⟩ := configured_eq_next.mp ht
    obtain ⟨u, hu, ht⟩ := andThen_eq_next.mp ht
    obtain ⟨u', hu', hrel⟩ := hR.storeChunk h hu
    obtain ⟨⟨r, v⟩, hv, ht⟩ := andThen_eq_next.mp ht
    obtain ⟨v', hv', hrel⟩ := hR.extractFrame hrel hv
    cases ht
    exact ⟨_, configured_eq_next.mpr ⟨hR.legal h hl, andThen_eq_next.mpr ⟨u', hu', andThen_eq_next.mpr ⟨_, hv', rfl⟩⟩⟩,
      hR.respond _ hrel⟩

/-! FAULT. -/

/-- `s'` is `s` with some value in FAULT. -/
def DiffersInFault (s s' : State) : Prop := ∃ f, s' = s.withFaultReg f

theorem differsInFault_storedByte (b : Byte) (h : DiffersInFault s s') : DiffersInFault (s.storedByte b) (s'.storedByte b) := by
  obtain ⟨f, rfl⟩ := h
  refine ⟨((s.withFaultReg f).storedByte b).faultReg, ?_⟩
  apply State.ext_fields <;> simp

theorem simulation_differsInFault : Simulation DiffersInFault where
  legal := by rintro s _ ⟨f, rfl⟩ hl; exact hl
  held := by rintro s _ n ⟨f, rfl⟩ hn; exact hn
  capacity := by rintro s _ ⟨f, rfl⟩; rfl
  frameLen := by rintro s _ ⟨f, rfl⟩; rfl
  rd := by rintro s _ ⟨f, rfl⟩; rfl
  wr := by rintro s _ ⟨f, rfl⟩; rfl
  count := by rintro s _ ⟨f, rfl⟩; rfl
  storage := by rintro s _ ⟨f, rfl⟩; rfl
  storedByte b h := differsInFault_storedByte b h
  consumed := by rintro s _ ⟨f, rfl⟩; exact ⟨f, rfl⟩
  respond v := by rintro ⟨f, rfl⟩; exact ⟨f, rfl⟩
  setFault bit := by rintro ⟨f, rfl⟩; exact ⟨f ||| bit, rfl⟩

/-- Settles O42: a difference in FAULT is a simulation for every command but UTIL, which reports it. -/
theorem faultRegisterIsNotConsulted : Obligations.FaultRegisterIsNotConsulted := by
  unfold Obligations.FaultRegisterIsNotConsulted
  constructor
  · intro i s t f hi h
    obtain ⟨_, ht, f', rfl⟩ := simulation_differsInFault.exec ⟨f, rfl⟩ (fun hutil => absurd hutil hi) h
    exact ⟨f', ht⟩
  · intro s f hl
    exact execUtil_of_legal (s := s.withFaultReg f) hl

/-! The width of `count`. -/

/-- `s'` is `s` on the spec's own machine. -/
def LosesCountWidth (s s' : State) : Prop := s' = s.withoutCountWidth

theorem withoutCountWidth_legal (hl : s.cfg.Legal) : s.withoutCountWidth.cfg.Legal := by
  obtain ⟨hC, hL, _⟩ := hl
  exact ⟨hC, hL, rfl⟩

theorem simulation_losesCountWidth : Simulation LosesCountWidth where
  legal := by rintro s _ rfl hl; exact withoutCountWidth_legal hl
  held := by rintro s _ n rfl _; rfl
  capacity := by rintro s _ rfl; rfl
  frameLen := by rintro s _ rfl; rfl
  rd := by rintro s _ rfl; rfl
  wr := by rintro s _ rfl; rfl
  count := by rintro s _ rfl; rfl
  storage := by rintro s _ rfl; rfl
  storedByte b := by rintro rfl; apply State.ext_fields <;> simp
  consumed := by rintro s _ rfl; rfl
  respond v := by rintro rfl; rfl
  setFault bit := by rintro rfl; rfl

theorem exec_withoutCountWidth (h : exec i s = .next t) : exec i s.withoutCountWidth = .next t.withoutCountWidth := by
  obtain ⟨_, ht, rfl⟩ := simulation_losesCountWidth.exec (s := s) rfl (fun _ => rfl) h
  exact ht

theorem step_withoutCountWidth (h : step s = .next t) : step s.withoutCountWidth = .next t.withoutCountWidth := by
  obtain ⟨hl, hcases⟩ := step_eq_next.mp h
  refine step_eq_next.mpr ⟨withoutCountWidth_legal hl, ?_⟩
  rcases hcases with ⟨hnone, rfl⟩ | ⟨i, rest, hcommand, hexec⟩ | ⟨b, rest, hillegal, hreject⟩
  · exact .inl ⟨hnone, rfl⟩
  · exact .inr (.inl ⟨i, rest, hcommand, exec_withoutCountWidth (s := s.withPort rest) hexec⟩)
  · cases hreject
    exact .inr (.inr ⟨b, rest, hillegal, rfl⟩)

/-- A command that writes beyond `C` sets OVF. -/
theorem ovf_of_overflow (hne : bytesWritten i ≠ []) (hover : s.cfg.capacity < s.count + (bytesWritten i).length)
    (h : exec i s = .next t) : t.ovf = true := by
  have hstored := (stored_ovf (bytesWritten i)).mpr (.inr ⟨hne, hover⟩)
  obtain ⟨_, heffect⟩ := exec_effect h
  cases heffect with
  | underflow hi h0 => exact absurd (congrArg bytesWritten hi) hne
  | stores r hroom => exact hstored
  | takes m r hi hrd hroom hm => exact hstored

/-- Settles O52: losing the width is a simulation; and what is refused for the width overflows, and completes without it. -/
theorem countWidthIsNotSeen : Obligations.CountWidthIsNotSeen := by
  unfold Obligations.CountWidthIsNotSeen
  refine ⟨fun s t h => step_withoutCountWidth h, fun i s t h => exec_withoutCountWidth h, fun i s w hs h => ?_⟩
  obtain ⟨hl, hne, hw, hfull⟩ := exec_eq_refused_countWidth h
  have hover := capacity_lt_of_full hl hw hfull
  obtain ⟨_, hcursors⟩ := hs
  obtain ⟨t, ht⟩ := exec_of_room (i := i) (s := s.withoutCountWidth) ⟨withoutCountWidth_legal hl, hcursors⟩
    (by rintro f (rfl | rfl) <;> exact absurd rfl hne) (.inr rfl)
  exact ⟨t, ht, ovf_of_overflow (s := s.withoutCountWidth) hne hover ht⟩

end Sys2Proof.Machine
end
